-- ==== Sys2Proof/Word.lean ====
section
/-! DEFINITION. The words of the CHIP-8 core: bytes, 16-bit words, register and key numbers
(spec/00_scope.md R5, R8, R9). Every value is unsigned; BitVec arithmetic wraps modulo 2^width. -/

namespace Sys2Proof

/-- An 8-bit value: a general register, a timer, a byte of memory (R5, R9). -/
abbrev Byte := BitVec 8

/-- A 16-bit value: I, PC, a stack slot, an opcode, a computed address (R5, R11). -/
abbrev Word := BitVec 16

/-- The number of a general register, 0x0 to 0xF (R10, R20). -/
abbrev Reg := Fin 16

/-- A logical key code, 0x0 to 0xF (R5, R30). -/
abbrev Key := Fin 16

/-- VF, register 0xF: a general register that is also the flag register (R21). -/
abbrev VF : Reg := 15

/-- V0, the implicit operand of JP V0,nnn (R103). -/
abbrev V0 : Reg := 0

end Sys2Proof
end

