-- ==== Sys2Proof/Syntax.lean ====
section
/-! DEFINITION. The 34 instructions of spec/30_encoding.md R80, one constructor per row of
spec/opcode_table.json, in the table's order. Fields are those of R73 and R75: register numbers
x and y, the 8-bit immediate kk, the 12-bit address nnn, and the row count n of DRW, a number that
WellFormed bounds by 15 (log 19). SHR and SHL keep the y field they ignore (R74, R82), so that an
instruction says every bit of its word (log 18). -/

namespace Sys2Proof

inductive Instr where
  /-- 00E0 CLS (R154). -/
  | cls
  /-- 00EE RET (R100). -/
  | ret
  /-- 1nnn JP nnn (R101). -/
  | jp (nnn : BitVec 12)
  /-- 2nnn CALL nnn (R102). -/
  | call (nnn : BitVec 12)
  /-- 3xkk SE Vx,kk (R104). -/
  | seImm (x : Reg) (kk : Byte)
  /-- 4xkk SNE Vx,kk (R105). -/
  | sneImm (x : Reg) (kk : Byte)
  /-- 5xy0 SE Vx,Vy (R106). -/
  | seReg (x y : Reg)
  /-- 9xy0 SNE Vx,Vy (R107). -/
  | sneReg (x y : Reg)
  /-- 6xkk LD Vx,kk (R120). -/
  | ldImm (x : Reg) (kk : Byte)
  /-- 7xkk ADD Vx,kk (R121). -/
  | addImm (x : Reg) (kk : Byte)
  /-- 8xy0 LD Vx,Vy (R122). -/
  | ldReg (x y : Reg)
  /-- 8xy1 OR Vx,Vy (R123). -/
  | orReg (x y : Reg)
  /-- 8xy2 AND Vx,Vy (R124). -/
  | andReg (x y : Reg)
  /-- 8xy3 XOR Vx,Vy (R125). -/
  | xorReg (x y : Reg)
  /-- 8xy4 ADD Vx,Vy (R126). -/
  | addReg (x y : Reg)
  /-- 8xy5 SUB Vx,Vy (R127). -/
  | sub (x y : Reg)
  /-- 8xy6 SHR Vx; y is encoded and ignored (R128, R74). -/
  | shr (x y : Reg)
  /-- 8xy7 SUBN Vx,Vy (R129). -/
  | subn (x y : Reg)
  /-- 8xyE SHL Vx; y is encoded and ignored (R130, R74). -/
  | shl (x y : Reg)
  /-- Annn LD I,nnn (R141). -/
  | ldI (nnn : BitVec 12)
  /-- Bnnn JP V0,nnn (R103). -/
  | jpV0 (nnn : BitVec 12)
  /-- Cxkk RND Vx,kk (R131). -/
  | rnd (x : Reg) (kk : Byte)
  /-- Dxyn DRW Vx,Vy,n (R155). -/
  | drw (x y : Reg) (n : Nat)
  /-- Ex9E SKP Vx (R172). -/
  | skp (x : Reg)
  /-- ExA1 SKNP Vx (R173). -/
  | sknp (x : Reg)
  /-- Fx07 LD Vx,DT (R175). -/
  | ldVxDt (x : Reg)
  /-- Fx15 LD DT,Vx (R176). -/
  | ldDtVx (x : Reg)
  /-- Fx0A LD Vx,K (R174). -/
  | ldVxK (x : Reg)
  /-- Fx18 LD ST,Vx (R177). -/
  | ldStVx (x : Reg)
  /-- Fx1E ADD I,Vx (R142). -/
  | addI (x : Reg)
  /-- Fx29 LD F,Vx (R143). -/
  | ldF (x : Reg)
  /-- Fx33 LD B,Vx (R144). -/
  | ldB (x : Reg)
  /-- Fx55 LD [I],Vx (R145). -/
  | ldMemVx (x : Reg)
  /-- Fx65 LD Vx,[I] (R146). -/
  | ldVxMem (x : Reg)
deriving DecidableEq, Repr

end Sys2Proof
end

