-- ==== Sys2Proof/Decode.lean ====
section
/-! DEFINITION. Fields, decoder, encoder and opcode map of spec/30_encoding.md (R70 to R84).
The decoder is total on 16-bit words and rejects an unmatched word by the name of its class (R83);
the encoder writes the same patterns (R74). The match and mask values of `opcodeTable` are the
spec's rows R80, which are from general knowledge by the spec's own word (R76; log 7). -/

namespace Sys2Proof

/-! ## Fields (R73) -/

/-- op[15:12], the class nibble. -/
def classOf (op : Word) : BitVec 4 := op.extractLsb' 12 4
/-- x = op[11:8]. -/
def fieldX (op : Word) : Reg := (op.extractLsb' 8 4).toFin
/-- y = op[7:4]. -/
def fieldY (op : Word) : Reg := (op.extractLsb' 4 4).toFin
/-- n = op[3:0]. -/
def fieldN (op : Word) : BitVec 4 := op.extractLsb' 0 4
/-- kk = op[7:0]. -/
def fieldKK (op : Word) : Byte := op.extractLsb' 0 8
/-- nnn = op[11:0]. -/
def fieldNNN (op : Word) : BitVec 12 := op.extractLsb' 0 12

/-! ## Decode (R78, R80) -/

/-- The unmatched words, by class (R83). -/
inductive Unmatched where
  /-- 0nnn other than 00E0 and 00EE (R81). -/
  | class0
  /-- 5xyN with N not 0. -/
  | class5
  /-- 8xyN with N in 8, 9, A, B, C, D, F. -/
  | class8
  /-- 9xyN with N not 0. -/
  | class9
  /-- ExKK with KK not 9E or A1. -/
  | classE
  /-- FxKK with KK not one of the nine function codes. -/
  | classF
deriving DecidableEq, Repr

/-- Class 8: the function code is n (R80 rows 11 to 19). -/
def decodeAlu (x y : Reg) (n : BitVec 4) : Except Unmatched Instr :=
  match n.toNat with
  | 0x0 => .ok (.ldReg x y)
  | 0x1 => .ok (.orReg x y)
  | 0x2 => .ok (.andReg x y)
  | 0x3 => .ok (.xorReg x y)
  | 0x4 => .ok (.addReg x y)
  | 0x5 => .ok (.sub x y)
  | 0x6 => .ok (.shr x y)
  | 0x7 => .ok (.subn x y)
  | 0xE => .ok (.shl x y)
  | _ => .error .class8

/-- Class E: the function code is kk (R80 rows 24, 25). -/
def decodeKey (x : Reg) (kk : Byte) : Except Unmatched Instr :=
  match kk.toNat with
  | 0x9E => .ok (.skp x)
  | 0xA1 => .ok (.sknp x)
  | _ => .error .classE

/-- Class F: the function code is kk (R80 rows 26 to 34). -/
def decodeMisc (x : Reg) (kk : Byte) : Except Unmatched Instr :=
  match kk.toNat with
  | 0x07 => .ok (.ldVxDt x)
  | 0x0A => .ok (.ldVxK x)
  | 0x15 => .ok (.ldDtVx x)
  | 0x18 => .ok (.ldStVx x)
  | 0x1E => .ok (.addI x)
  | 0x29 => .ok (.ldF x)
  | 0x33 => .ok (.ldB x)
  | 0x55 => .ok (.ldMemVx x)
  | 0x65 => .ok (.ldVxMem x)
  | _ => .error .classF

/-- The decoder: every 16-bit word is an instruction or is rejected by name. Every bit outside
the fields an instruction uses is compared (R77). -/
def decode (op : Word) : Except Unmatched Instr :=
  match (classOf op).toNat with
  | 0x0 =>
    if op = 0x00E0#16 then .ok .cls
    else if op = 0x00EE#16 then .ok .ret
    else .error .class0
  | 0x1 => .ok (.jp (fieldNNN op))
  | 0x2 => .ok (.call (fieldNNN op))
  | 0x3 => .ok (.seImm (fieldX op) (fieldKK op))
  | 0x4 => .ok (.sneImm (fieldX op) (fieldKK op))
  | 0x5 => if fieldN op = 0#4 then .ok (.seReg (fieldX op) (fieldY op)) else .error .class5
  | 0x6 => .ok (.ldImm (fieldX op) (fieldKK op))
  | 0x7 => .ok (.addImm (fieldX op) (fieldKK op))
  | 0x8 => decodeAlu (fieldX op) (fieldY op) (fieldN op)
  | 0x9 => if fieldN op = 0#4 then .ok (.sneReg (fieldX op) (fieldY op)) else .error .class9
  | 0xA => .ok (.ldI (fieldNNN op))
  | 0xB => .ok (.jpV0 (fieldNNN op))
  | 0xC => .ok (.rnd (fieldX op) (fieldKK op))
  | 0xD => .ok (.drw (fieldX op) (fieldY op) (fieldN op).toNat)
  | 0xE => decodeKey (fieldX op) (fieldKK op)
  | _ => decodeMisc (fieldX op) (fieldKK op)   -- the class nibble is 0xF here

/-- An opcode is assembled big-endian: the byte at the lower address is op[15:8] (R57, R70). -/
def opcodeOfBytes (hi lo : Byte) : Word := hi ++ lo

/-- The two bytes of an opcode, the one at the lower address first (R57). -/
def bytesOfOpcode (op : Word) : Byte × Byte := (op.extractLsb' 8 8, op.extractLsb' 0 8)

/-- The decoder on the two bytes an instruction occupies, in address order. -/
def decodeBytes (hi lo : Byte) : Except Unmatched Instr := decode (opcodeOfBytes hi lo)

/-! ## Encode (R74, R80) -/

/-- A register number as its 4-bit field. -/
def regBits (x : Reg) : BitVec 4 := BitVec.ofFin x

/-- Format F-NNN: class nibble and nnn. -/
def formNNN (c : BitVec 4) (nnn : BitVec 12) : Word := c ++ nnn
/-- Formats F-XKK and F-X: class nibble, x, and kk (an immediate or a function code). -/
def formXKK (c : BitVec 4) (x : Reg) (kk : Byte) : Word := c ++ regBits x ++ kk
/-- Formats F-XY and F-XYN: class nibble, x, y, and n (a function code or a row count). -/
def formXYN (c : BitVec 4) (x y : Reg) (n : BitVec 4) : Word := c ++ regBits x ++ regBits y ++ n

/-- The word of an instruction. -/
def encode : Instr → Word
  | .cls => 0x00E0#16
  | .ret => 0x00EE#16
  | .jp nnn => formNNN 0x1#4 nnn
  | .call nnn => formNNN 0x2#4 nnn
  | .seImm x kk => formXKK 0x3#4 x kk
  | .sneImm x kk => formXKK 0x4#4 x kk
  | .seReg x y => formXYN 0x5#4 x y 0x0#4
  | .sneReg x y => formXYN 0x9#4 x y 0x0#4
  | .ldImm x kk => formXKK 0x6#4 x kk
  | .addImm x kk => formXKK 0x7#4 x kk
  | .ldReg x y => formXYN 0x8#4 x y 0x0#4
  | .orReg x y => formXYN 0x8#4 x y 0x1#4
  | .andReg x y => formXYN 0x8#4 x y 0x2#4
  | .xorReg x y => formXYN 0x8#4 x y 0x3#4
  | .addReg x y => formXYN 0x8#4 x y 0x4#4
  | .sub x y => formXYN 0x8#4 x y 0x5#4
  | .shr x y => formXYN 0x8#4 x y 0x6#4
  | .subn x y => formXYN 0x8#4 x y 0x7#4
  | .shl x y => formXYN 0x8#4 x y 0xE#4
  | .ldI nnn => formNNN 0xA#4 nnn
  | .jpV0 nnn => formNNN 0xB#4 nnn
  | .rnd x kk => formXKK 0xC#4 x kk
  | .drw x y n => formXYN 0xD#4 x y (BitVec.ofNat 4 n)
  | .skp x => formXKK 0xE#4 x 0x9E#8
  | .sknp x => formXKK 0xE#4 x 0xA1#8
  | .ldVxDt x => formXKK 0xF#4 x 0x07#8
  | .ldDtVx x => formXKK 0xF#4 x 0x15#8
  | .ldVxK x => formXKK 0xF#4 x 0x0A#8
  | .ldStVx x => formXKK 0xF#4 x 0x18#8
  | .addI x => formXKK 0xF#4 x 0x1E#8
  | .ldF x => formXKK 0xF#4 x 0x29#8
  | .ldB x => formXKK 0xF#4 x 0x33#8
  | .ldMemVx x => formXKK 0xF#4 x 0x55#8
  | .ldVxMem x => formXKK 0xF#4 x 0x65#8

/-! ## The opcode map as the spec writes it (R80) -/

/-- One row of R80: the mnemonic as spec/opcode_table.json spells it, the match value, the mask. -/
structure OpcodeRow where
  mnemonic : String
  value : Word
  mask : Word
deriving DecidableEq, Repr

/-- A word matches a row when `op & mask == match` (R78). -/
def OpcodeRow.matches (r : OpcodeRow) (op : Word) : Bool := op &&& r.mask == r.value

/-- The row of R80 that an instruction is an instance of. -/
def rowOf : Instr → OpcodeRow
  | .cls => ⟨"CLS", 0x00E0, 0xFFFF⟩
  | .ret => ⟨"RET", 0x00EE, 0xFFFF⟩
  | .jp _ => ⟨"JP_nnn", 0x1000, 0xF000⟩
  | .call _ => ⟨"CALL_nnn", 0x2000, 0xF000⟩
  | .seImm _ _ => ⟨"SE_Vx_kk", 0x3000, 0xF000⟩
  | .sneImm _ _ => ⟨"SNE_Vx_kk", 0x4000, 0xF000⟩
  | .seReg _ _ => ⟨"SE_Vx_Vy", 0x5000, 0xF00F⟩
  | .sneReg _ _ => ⟨"SNE_Vx_Vy", 0x9000, 0xF00F⟩
  | .ldImm _ _ => ⟨"LD_Vx_kk", 0x6000, 0xF000⟩
  | .addImm _ _ => ⟨"ADD_Vx_kk", 0x7000, 0xF000⟩
  | .ldReg _ _ => ⟨"LD_Vx_Vy", 0x8000, 0xF00F⟩
  | .orReg _ _ => ⟨"OR_Vx_Vy", 0x8001, 0xF00F⟩
  | .andReg _ _ => ⟨"AND_Vx_Vy", 0x8002, 0xF00F⟩
  | .xorReg _ _ => ⟨"XOR_Vx_Vy", 0x8003, 0xF00F⟩
  | .addReg _ _ => ⟨"ADD_Vx_Vy", 0x8004, 0xF00F⟩
  | .sub _ _ => ⟨"SUB_Vx_Vy", 0x8005, 0xF00F⟩
  | .shr _ _ => ⟨"SHR_Vx", 0x8006, 0xF00F⟩
  | .subn _ _ => ⟨"SUBN_Vx_Vy", 0x8007, 0xF00F⟩
  | .shl _ _ => ⟨"SHL_Vx", 0x800E, 0xF00F⟩
  | .ldI _ => ⟨"LD_I_nnn", 0xA000, 0xF000⟩
  | .jpV0 _ => ⟨"JP_V0_nnn", 0xB000, 0xF000⟩
  | .rnd _ _ => ⟨"RND_Vx_kk", 0xC000, 0xF000⟩
  | .drw _ _ _ => ⟨"DRW_Vx_Vy_n", 0xD000, 0xF000⟩
  | .skp _ => ⟨"SKP_Vx", 0xE09E, 0xF0FF⟩
  | .sknp _ => ⟨"SKNP_Vx", 0xE0A1, 0xF0FF⟩
  | .ldVxDt _ => ⟨"LD_Vx_DT", 0xF007, 0xF0FF⟩
  | .ldDtVx _ => ⟨"LD_DT_Vx", 0xF015, 0xF0FF⟩
  | .ldVxK _ => ⟨"LD_Vx_K", 0xF00A, 0xF0FF⟩
  | .ldStVx _ => ⟨"LD_ST_Vx", 0xF018, 0xF0FF⟩
  | .addI _ => ⟨"ADD_I_Vx", 0xF01E, 0xF0FF⟩
  | .ldF _ => ⟨"LD_F_Vx", 0xF029, 0xF0FF⟩
  | .ldB _ => ⟨"LD_B_Vx", 0xF033, 0xF0FF⟩
  | .ldMemVx _ => ⟨"LD__I__Vx", 0xF055, 0xF0FF⟩
  | .ldVxMem _ => ⟨"LD_Vx__I", 0xF065, 0xF0FF⟩

/-- The 34 rows of R80, in its order. -/
def opcodeTable : List OpcodeRow :=
  [rowOf .cls, rowOf .ret, rowOf (.jp 0), rowOf (.call 0), rowOf (.seImm 0 0),
   rowOf (.sneImm 0 0), rowOf (.seReg 0 0), rowOf (.sneReg 0 0), rowOf (.ldImm 0 0),
   rowOf (.addImm 0 0), rowOf (.ldReg 0 0), rowOf (.orReg 0 0), rowOf (.andReg 0 0),
   rowOf (.xorReg 0 0), rowOf (.addReg 0 0), rowOf (.sub 0 0), rowOf (.shr 0 0)] ++
  [rowOf (.subn 0 0), rowOf (.shl 0 0), rowOf (.ldI 0), rowOf (.jpV0 0), rowOf (.rnd 0 0),
   rowOf (.drw 0 0 0), rowOf (.skp 0), rowOf (.sknp 0), rowOf (.ldVxDt 0), rowOf (.ldDtVx 0),
   rowOf (.ldVxK 0), rowOf (.ldStVx 0), rowOf (.addI 0), rowOf (.ldF 0), rowOf (.ldB 0),
   rowOf (.ldMemVx 0), rowOf (.ldVxMem 0)]

/-! ## The host's question -/

/-- The instruction read from a table row's word: the bits of `w` above `nbits` are 0, the word is
laid out as memory holds it (two bytes, big-endian) and given to the decoder. No instruction is
longer than 16 bits (R72). -/
def decodeTableWord (nbits w : Nat) : Option Instr :=
  if 16 < nbits then none
  else
    let op := BitVec.ofNat 16 (w % 2 ^ nbits)
    match decodeBytes (bytesOfOpcode op).1 (bytesOfOpcode op).2 with
    | .ok i => some i
    | .error _ => none

end Sys2Proof
end

