-- ==== Sys2Proof/Config.lean ====
section
/-! DEFINITION. What is fixed for one machine, and what the environment answers.
The parameters of spec/00_scope.md R7 are plain data (Params), carried by State so that every
statement about all states covers every parameter value (log 1). The draws of R14 and the
power-on contents of memory (spec/20_memory.md R55) are constants without a body: nothing can be
proved of their values, so a claim holds for every answer the environment can give (logs 3, 4, 5). -/

namespace Sys2Proof

/-- TIMER_MODE (R7, R211): who issues TICK. -/
inductive TimerMode where
  /-- FREE: the host issues TICK between any two transactions. -/
  | free
  /-- EVERY_N: the block performs one TICK at the end of every TIMER_N-th executed STEP. -/
  | everyN
deriving DecidableEq, Repr

/-- The named parameters of a machine (R7). -/
structure Params where
  /-- ENTRY: where the program image is loaded and where PC starts. -/
  entry : Word
  /-- STRICT: whether an unmatched opcode faults (true) or is a no-op (false). -/
  strict : Bool
  /-- TIMER_MODE. -/
  timerMode : TimerMode
  /-- TIMER_N, used only in EVERY_N mode. -/
  timerN : Nat
  /-- FONT: the 80 bytes placed at 0x000 to 0x04F. -/
  font : Vector Byte 80
deriving DecidableEq, Repr

/-- The ranges R7 gives the parameters: ENTRY in 0x200 to 0xFFE, TIMER_N positive.
A configuration outside them has no run (D19; log 13). -/
def Params.valid (p : Params) : Bool :=
  decide (0x200 ≤ p.entry.toNat) && decide (p.entry.toNat ≤ 0xFFE) && decide (0 < p.timerN)

namespace Config

/-- The byte an address of MEM outside the font holds at power-on (R55, R241: a draw per byte).
FREE VALUE, log 3. -/
opaque powerOnByte : Nat → Byte

/-- The answer to the draw numbered n, when it is `draw RND8` (R14, R131). FREE VALUE, log 4. -/
opaque rndByte : Nat → Byte

/-- Whether the environment, at the draw numbered n, settles on a held key when the choice comes
to it (R14, R174: `draw KEYSEL(S)`). FREE VALUE, log 5. -/
opaque prefersKey : Nat → Key → Bool

end Config

end Sys2Proof
end

