-- ==== Sys2Proof/Machine/Font.lean ====
section
/-! DEFINITION. The defaults of the parameters (spec/00_scope.md R7) and the default font of
spec/20_memory.md R53, which the spec takes from general knowledge (G2; log 8). -/

namespace Sys2Proof.Machine

/-- The 16 glyphs of R53, five bytes each, glyph d at 5d (R52). -/
def defaultFont : Vector Byte 80 :=
  #v[0xF0, 0x90, 0x90, 0x90, 0xF0,
     0x20, 0x60, 0x20, 0x20, 0x70,
     0xF0, 0x10, 0xF0, 0x80, 0xF0,
     0xF0, 0x10, 0xF0, 0x10, 0xF0,
     0x90, 0x90, 0xF0, 0x10, 0x10,
     0xF0, 0x80, 0xF0, 0x10, 0xF0,
     0xF0, 0x80, 0xF0, 0x90, 0xF0,
     0xF0, 0x10, 0x20, 0x40, 0x40,
     0xF0, 0x90, 0xF0, 0x90, 0xF0,
     0xF0, 0x90, 0xF0, 0x10, 0xF0,
     0xF0, 0x90, 0xF0, 0x90, 0x90,
     0xE0, 0x90, 0xE0, 0x90, 0xE0,
     0xF0, 0x80, 0x80, 0x80, 0xF0,
     0xE0, 0x90, 0x90, 0x90, 0xE0,
     0xF0, 0x80, 0xF0, 0x80, 0xF0,
     0xF0, 0x80, 0xF0, 0x80, 0x80]

/-- The defaults of R7: ENTRY 0x200, STRICT false, TIMER_MODE FREE, TIMER_N 60, FONT of R53. -/
def defaultParams : Params :=
  { entry := 0x200, strict := false, timerMode := .free, timerN := 60, font := defaultFont }

end Sys2Proof.Machine
end

