-- ==== Sys2Proof/Machine/State.lean ====
section
/-! DEFINITION. The state of the block (spec/10_state.md), why a transaction can stop, and the state
right after reset. -/

namespace Sys2Proof.Machine

/-- FAULT.code (R31). Codes 7 to 15 are never written, so they have no name here (log 17). -/
inductive FaultCode where
  /-- 0: no fault; the engine runs. -/
  | none
  /-- 1: an unmatched opcode while STRICT = true (R84). -/
  | unknownOpcode
  /-- 2: CALL with SP = 16 (R102). -/
  | stackOverflow
  /-- 3: RET with SP = 0 (R100). -/
  | stackUnderflow
  /-- 4: an opcode fetch above 0xFFF (R70). -/
  | memRangeFetch
  /-- 5: a data read above 0xFFF (R56). -/
  | memRangeRead
  /-- 6: a data write above 0xFFF (R56). -/
  | memRangeWrite
deriving DecidableEq, Repr

/-- The FAULT register (R31). -/
structure FaultReg where
  /-- FAULT.code. -/
  code : FaultCode
  /-- FAULT.ipc: the address of the instruction whose STEP faulted. -/
  ipc : Word
  /-- FAULT.opcode: the opcode fetched, 0 for a fetch fault. -/
  opcode : Word
  /-- FAULT.addr: the first out-of-range address for codes 4 to 6, else 0. -/
  addr : Word
deriving DecidableEq, Repr

/-- FAULT after RESET: code NONE, every other field 0 (R35, R240). -/
def FaultReg.clear : FaultReg := { code := .none, ipc := 0, opcode := 0, addr := 0 }

/-- One row of the framebuffer: bit X is the pixel in column X. -/
abbrev PixelRow := BitVec 64

/-- Everything the block holds (R20 to R32), the parameters of its machine (R7; log 1), and the
model's own draw counter (log 4). -/
structure State where
  /-- V0 to VF (R20). -/
  v : Vector Byte 16
  /-- I, the index register (R22). -/
  i : Word
  /-- PC (R23). -/
  pc : Word
  /-- SP, 5 bits; legal values 0 to 16 (R24; log 14). -/
  sp : BitVec 5
  /-- STACK[0] to STACK[15] (R25). -/
  stack : Vector Word 16
  /-- DT, the delay timer (R26). -/
  dt : Byte
  /-- ST, the sound timer (R27). -/
  st : Byte
  /-- MEM (R28): the bytes that differ from what an unlisted address reads as, by rising address
  (Machine/Ops.lean; log 3). -/
  mem : List Host.Cell
  /-- FB (R29): row Y, bit X is the pixel FB[Y*64 + X] (log 15). -/
  fb : Vector PixelRow 32
  /-- KEYS (R30): bit k is 1 when key k is held. -/
  keys : BitVec 16
  /-- FAULT (R31). -/
  fault : FaultReg
  /-- PRESCALE (R32): counts executed STEPs in EVERY_N mode. -/
  prescale : Nat
  /-- The parameters of R7, which no transaction changes. -/
  params : Params
  /-- The MODEL's own counter of the draws answered so far; it numbers the next one (log 4). -/
  draws : Nat
deriving DecidableEq, Repr

/-- Why a transaction stops the model. No instruction and no STEP does: the spec gives every fault
of the block an effect, which is a next state (R201; log 2). -/
inductive Fault where
  /-- Raised by the host transactions RESET and LOAD (Machine/HostPort.lean) on a machine whose
  parameters are outside the ranges of R7: "configurations outside this range are given no run"
  (D19; log 13). SAFE: the model stops, so nothing is claimed of such a machine. -/
  | parameterOutOfRange
deriving DecidableEq, Repr

/-- Why the model gives no meaning. -/
inductive Refusal where
  /-- Raised by an arm of exec whose instruction has no meaning yet; no arm is one. SAFE. -/
  | notModelled (mnemonic : String)
  /-- Raised by LOAD, and by RESET with an image, when the image is empty (R242: "absent ROM").
  The block is unchanged and the launch has no run (log 11). SAFE. -/
  | loadEmpty
  /-- Raised by LOAD, and by RESET with an image, when ENTRY + len > 0x1000 (R242).
  The block is unchanged and the launch has no run (log 11). SAFE. -/
  | loadTooLarge
  /-- Raised by the host transaction TICK in EVERY_N mode, which the host never issues (R211;
  log 12). SAFE. -/
  | tickNotOffered
deriving DecidableEq, Repr

/-- The machine with parameters `p` right after power-on and RESET without an image (R35, R240,
R241). Nothing of MEM is listed: the font and the power-on bytes are what unlisted addresses
read as. KEYS has no reset value in the spec and starts empty (log 6). -/
def State.powerOn (p : Params) : State :=
  { v := Vector.replicate 16 0
    i := 0
    pc := p.entry
    sp := 0
    stack := Vector.replicate 16 0
    dt := 0
    st := 0
    mem := []
    fb := Vector.replicate 32 0
    keys := 0
    fault := FaultReg.clear
    prescale := 0
    params := p
    draws := 0 }

/-- The machine with the default parameters right after reset. No program is in it: LOAD, or
State.withFetchWord, places one (log 10). -/
def State.reset : State := State.powerOn defaultParams

end Sys2Proof.Machine
end

