-- ==== Sys2Proof/Machine/Ops.lean ====
section
/-! DEFINITION. The named operations over registers, stack, memory, framebuffer and keys, the opcode
fetch, and taking a fault. Every read and write of State by a meaning goes through them. -/

namespace Sys2Proof.Machine

/-! ## Registers (spec/10_state.md R20 to R27) -/

/-- V[x]. -/
def State.reg (s : State) (x : Reg) : Byte := s.v[x]
/-- V[x] <- b. -/
def State.setReg (s : State) (x : Reg) (b : Byte) : State := { s with v := s.v.set x b }
/-- I <- a. -/
def State.setI (s : State) (a : Word) : State := { s with i := a }
/-- PC <- a. -/
def State.setPc (s : State) (a : Word) : State := { s with pc := a }
/-- DT <- b. -/
def State.setDt (s : State) (b : Byte) : State := { s with dt := b }
/-- ST <- b. -/
def State.setSt (s : State) (b : Byte) : State := { s with st := b }

/-- FB <- fb (R29). -/
def State.setFb (s : State) (fb : Vector PixelRow 32) : State := { s with fb := fb }

/-! ## Stack (R24, R25) -/

/-- The slot SP = sp names: sp mod 16. -/
def stackSlot (sp : BitVec 5) : Fin 16 := Fin.ofNat 16 sp.toNat

/-- STACK[SP mod 16], the top of the stack. -/
def State.stackTop (s : State) : Word := s.stack[stackSlot s.sp]

/-- SP <- SP + 1; STACK[SP mod 16] <- a (R102). -/
def State.push (s : State) (a : Word) : State :=
  { s with sp := s.sp + 1, stack := s.stack.set (stackSlot (s.sp + 1)) a }

/-- SP <- SP - 1; the popped slot is not cleared (R25, R100). -/
def State.dropTop (s : State) : State := { s with sp := s.sp - 1 }

/-! ## Memory (spec/20_memory.md) -/

/-- The highest address of MEM (R50). -/
abbrev lastAddress : Nat := 0xFFF

/-- What an unlisted address is known to hold: the font byte at 0x000 to 0x04F (R54), and nothing
known elsewhere (R55; log 3). -/
def Memory.blank (font : Vector Byte 80) (a : Nat) : Option Byte :=
  if h : a < 80 then some font[a] else none

/-- The byte listed for address a, if one is. -/
def Memory.lookup : List Host.Cell → Nat → Option Byte
  | [], _ => none
  | c :: cs, a => if c.1 = a then some c.2 else Memory.lookup cs a

/-- The byte at address a: the listed one; else the font's; else the power-on byte, a free value. -/
def Memory.read (font : Vector Byte 80) (m : List Host.Cell) (a : Nat) : Byte :=
  match Memory.lookup m a with
  | some b => b
  | none =>
    match Memory.blank font a with
    | some b => b
    | none => Config.powerOnByte a

/-- List byte b at address a, in its place by rising address. -/
def Memory.insert (a : Nat) (b : Byte) : List Host.Cell → List Host.Cell
  | [] => [(a, b)]
  | c :: cs =>
    if c.1 < a then c :: Memory.insert a b cs
    else if c.1 = a then (a, b) :: cs
    else (a, b) :: c :: cs

/-- Unlist address a. -/
def Memory.erase (a : Nat) (m : List Host.Cell) : List Host.Cell := m.filter fun c => c.1 ≠ a

/-- The memory after byte b is written at address a, in canonical form: an address is unlisted when
it holds what unlisted addresses are known to hold. -/
def Memory.write (font : Vector Byte 80) (m : List Host.Cell) (a : Nat) (b : Byte) :
    List Host.Cell :=
  if Memory.blank font a = some b then Memory.erase a m else Memory.insert a b m

/-- The addresses of a memory rise strictly. -/
def Memory.rising : List Host.Cell → Bool
  | [] => true
  | c :: cs => (cs.all fun d => decide (c.1 < d.1)) && Memory.rising cs

/-- The canonical form: strictly rising addresses, all of them in MEM, and no entry equal to what
an unlisted address is known to hold. -/
def Memory.wf (font : Vector Byte 80) (m : List Host.Cell) : Bool :=
  Memory.rising m && m.all fun c => decide (c.1 ≤ lastAddress) && decide (Memory.blank font c.1 ≠ some c.2)

/-- MemRead(a, 1) for an address that was range checked (R11). -/
def State.readByte (s : State) (a : Word) : Byte := Memory.read s.params.font s.mem a.toNat

/-- MemWrite(a, 1, b) for an address that was range checked (R11). -/
def State.writeByte (s : State) (a : Word) (b : Byte) : State :=
  { s with mem := Memory.write s.params.font s.mem a.toNat b }

/-- Whether a computed address is outside MEM (R56). -/
def outOfRange (a : Word) : Bool := decide (lastAddress < a.toNat)

/-- The addresses base, base + 1, … of an n-byte access, modulo 65536, in access order
(R56, R59, spec/42_index_memory.md R140). -/
def accessAddresses (base : Word) (n : Nat) : List Word :=
  (List.range n).map fun k => base + BitVec.ofNat 16 k

/-- The first out-of-range address of an n-byte access, in access order (R56, R204). -/
def firstOutOfRange (base : Word) (n : Nat) : Option Word := (accessAddresses base n).find? outOfRange

/-- The bytes of an n-byte read, in access order. -/
def State.readBytes (s : State) (base : Word) (n : Nat) : List Byte :=
  (accessAddresses base n).map s.readByte

/-- Write bytes at base, base + 1, …, in that order. -/
def State.writeBytes (s : State) (base : Word) : List Byte → State
  | [] => s
  | b :: bs => (s.writeByte base b).writeBytes (base + 1) bs

/-- V[0] to V[n-1], in that order. -/
def State.regsUpTo (s : State) (n : Nat) : List Byte :=
  (List.range n).map fun k => s.reg (Fin.ofNat 16 k)

/-- V[k], V[k+1], … <- the bytes, in that order. -/
def State.setRegsFrom (s : State) (k : Nat) : List Byte → State
  | [] => s
  | b :: bs => (s.setReg (Fin.ofNat 16 k) b).setRegsFrom (k + 1) bs

/-! ## Framebuffer controller (spec/43_display.md R150 to R153) -/

/-- The pixel at (X, Y), each coordinate wrapped on its own axis. -/
def pixel (fb : Vector PixelRow 32) (X Y : Nat) : Bool := fb[Y % 32].getLsbD (X % 64)

/-- set_pixel(X, Y): wrap, XOR the pixel with 1, and say whether it is now off (R150). -/
def setPixel (fb : Vector PixelRow 32) (X Y : Nat) : Vector PixelRow 32 × Bool :=
  let fb' := fb.set (Y % 32) (fb[Y % 32] ^^^ BitVec.twoPow 64 (X % 64))
  (fb', !pixel fb' X Y)

/-- A toggle of one DRW, with the collision flag collected so far (R151, R155). -/
def toggle (X Y : Nat) (acc : Vector PixelRow 32 × Bool) : Vector PixelRow 32 × Bool :=
  let r := setPixel acc.1 X Y
  (r.1, acc.2 || r.2)

/-- One row of a sprite, high bit first: a 1 bit toggles, a 0 bit does nothing (R155). -/
def drawRow (cx Y : Nat) (b : Byte) (acc : Vector PixelRow 32 × Bool) :
    Vector PixelRow 32 × Bool :=
  (List.range 8).foldl
    (fun acc col => if b.getLsbD (7 - col) then toggle (cx + col) Y acc else acc) acc

/-- The rows of a sprite at Y, Y + 1, … (R155). -/
def drawRows (cx : Nat) : Nat → List Byte → Vector PixelRow 32 × Bool → Vector PixelRow 32 × Bool
  | _, [], acc => acc
  | Y, b :: bs, acc => drawRows cx (Y + 1) bs (drawRow cx Y b acc)

/-- clear(): all 2048 pixels 0 (R152). -/
def clearFb : Vector PixelRow 32 := Vector.replicate 32 0

/-! ## Input latch (spec/44_timers_keys.md R170) -/

/-- is_pressed(k), asked with a full 8-bit value: no key of 16 or more exists. -/
def State.isPressed (s : State) (k : Byte) : Bool :=
  decide (k.toNat ≤ 15) && s.keys.getLsbD k.toNat

/-- The sixteen key codes in rising order. -/
def allKeys : List Key := [0, 1, 2, 3, 4, 5, 6, 7, 8, 9, 10, 11, 12, 13, 14, 15]

/-- A key code as the byte a register holds. -/
def keyByte (k : Key) : Byte := BitVec.ofNat 8 k.val

/-- The set S of keys held in this STEP (R174). -/
def State.heldKeys (s : State) : List Key := allKeys.filter fun k => s.isPressed (keyByte k)

/-! ## Draws (spec/00_scope.md R14) -/

/-- The answer to `draw RND8` in this state. -/
def State.rndByte (s : State) : Byte := Config.rndByte s.draws

/-- The member of the held set that `draw KEYSEL` answers at the draw numbered d: the environment
is offered each key in turn and may settle on any of them; a set of one leaves it no choice. -/
def chooseKey (d : Nat) : Key → List Key → Key
  | k, [] => k
  | k, k' :: ks => if Config.prefersKey d k then k else chooseKey d k' ks

/-- One draw has been answered. -/
def State.countDraw (s : State) : State := { s with draws := s.draws + 1 }

/-! ## Fetch (spec/30_encoding.md R70, R71) -/

/-- The opcode at PC, or the first fetch address above 0xFFF. -/
def State.fetch (s : State) : Except Word Word :=
  if outOfRange s.pc then .error s.pc
  else if outOfRange (s.pc + 1) then .error (s.pc + 1)
  else .ok (opcodeOfBytes (s.readByte s.pc) (s.readByte (s.pc + 1)))

/-- PC <- (A + 2) mod 65536, before dispatch. -/
def State.advancePc (s : State) : State := s.setPc (s.pc + 2)

/-- Store an opcode at address a as memory holds it: two bytes, the high one first (R57). -/
def State.storeOpcode (s : State) (a op : Word) : State :=
  s.writeBytes a [(bytesOfOpcode op).1, (bytesOfOpcode op).2]

/-! ## Taking a fault (spec/00_scope.md R13, spec/60_exceptions.md R201) -/

/-- Whether the engine is halted: FAULT.code is not NONE (R202). -/
def State.halted (s : State) : Bool := decide (s.fault.code ≠ .none)

/-- The state a fault of the STEP at address A leaves: FAULT is written, PC is A, and the engine is
halted. Everything else is as it is in `s`, which must be the state before the STEP but for PC. -/
def State.recordFault (s : State) (code : FaultCode) (A opcode addr : Word) : State :=
  { s with pc := A, fault := { code := code, ipc := A, opcode := opcode, addr := addr } }

/-- raise Fault(code, addr) during the instruction `opcode`, whose dispatch found PC = A + 2 (R71)
and which has written nothing: every check of a meaning stands before its writes, which R13 says
gives the same result (log 9). -/
def State.raise (s : State) (code : FaultCode) (opcode addr : Word) : State :=
  s.recordFault code (s.pc - 2) opcode addr

/-- The fetch at PC found its first address above 0xFFF to be `addr`; no opcode was read (R70). -/
def State.raiseFetch (s : State) (addr : Word) : State := s.recordFault .memRangeFetch s.pc 0 addr

end Sys2Proof.Machine
end

