-- ==== Sys2Proof/Machine/Countdown.lean ====
section
/-! DEFINITION. The timer countdown and the end of a STEP (spec/60_exceptions.md R210, R211), and what
an unmatched opcode does (spec/30_encoding.md R84). -/

namespace Sys2Proof.Machine

/-- A timer counts down by one and saturates at 0 (R210). -/
def countDown (t : Byte) : Byte := if t = 0 then 0 else t - 1

/-- TICK (R210): it acts whether or not the engine is halted. -/
def State.tick (s : State) : State := { s with dt := countDown s.dt, st := countDown s.st }

/-- The last action of an executed STEP (R71 step 5, R211): in EVERY_N mode PRESCALE counts it, and
the TIMER_N-th performs one TICK. -/
def State.advancePrescale (s : State) : State :=
  match s.params.timerMode with
  | .free => s
  | .everyN =>
    if s.prescale + 1 = s.params.timerN then { s with prescale := 0 }.tick
    else { s with prescale := s.prescale + 1 }

/-- The end of a STEP: one that faulted does not count (R201, R211). -/
def State.finishStep (s : State) : State := if s.halted then s else s.advancePrescale

/-- An unmatched opcode, after the fetch (R84). -/
def State.runUnmatched (s : State) (op : Word) : State :=
  if s.params.strict then s.raise .unknownOpcode op 0 else s

end Sys2Proof.Machine
end

