-- ==== Sys2Proof/Machine/Flags.lean ====
section
/-! DEFINITION. The values the flag-writing instructions put in VF (spec/10_state.md R21,
spec/41_alu.md R126 to R130, spec/43_display.md R155). -/

namespace Sys2Proof.Machine

/-- The exact sum of two bytes, 0 to 510 (R126). -/
abbrev exactSum (a b : Byte) : Nat := a.toNat + b.toNat

/-- Carry out of bit 7: the exact sum exceeds 255 (R126). -/
def carryFlag (sum : Nat) : Byte := if 255 < sum then 1 else 0

/-- NOT borrow, by the strict unsigned comparison a > b (R127, R129). -/
def greaterFlag (a b : Byte) : Byte := if b.toNat < a.toNat then 1 else 0

/-- Bit 0, the bit a right shift shifts out (R128). -/
def lowBitFlag (a : Byte) : Byte := a &&& 1

/-- Bit 7, the bit a left shift shifts out (R130). -/
def highBitFlag (a : Byte) : Byte := (a >>> 7) &&& 1

/-- Collision: at least one toggle switched a pixel off (R151, R155). -/
def collisionFlag (hit : Bool) : Byte := if hit then 1 else 0

end Sys2Proof.Machine
end

