-- ==== Sys2Proof/Machine/Operands.lean ====
section
/-! DEFINITION. Operand forms (spec/30_encoding.md R75) and the values instructions compute from
them that are not flags. -/

namespace Sys2Proof.Machine

/-- zext_16(nnn) (R75). -/
def zextAddr (nnn : BitVec 12) : Word := nnn.setWidth 16

/-- A register's byte widened to 16 bits with zeros (R9). -/
def zextByte (b : Byte) : Word := b.setWidth 16

/-- A skip adds 2 to the PC that the fetch left: exactly one instruction is passed over (R109). -/
def State.skipIf (s : State) (c : Bool) : State := if c then s.setPc (s.pc + 2) else s

/-- The glyph base address V[x] * 5, all 8 bits of V[x] used (spec/42_index_memory.md R143). -/
def glyphAddress (b : Byte) : Word := BitVec.ofNat 16 (b.toNat * 5)

/-- The hundreds, tens and ones digits of a byte, most significant first (R144, R57). -/
def decimalDigits (b : Byte) : List Byte :=
  [BitVec.ofNat 8 (b.toNat / 100), BitVec.ofNat 8 (b.toNat / 10 % 10), BitVec.ofNat 8 (b.toNat % 10)]

/-- How many registers LD [I],Vx and LD Vx,[I] move: V0 to Vx (R145, R146). -/
def blockLength (x : Reg) : Nat := x.val + 1

/-- The amount LD [I],Vx and LD Vx,[I] add to I: x, not x + 1 (R145, R146). -/
def blockStride (x : Reg) : Word := BitVec.ofNat 16 x.val

end Sys2Proof.Machine
end

