-- ==== Sys2Proof/Machine/Alu.lean ====
section
/-! DEFINITION. Register loads, ALU and random (spec/41_alu.md). The statements of a rule run in
sequence, and a read sees the writes before it (spec/00_scope.md R12, D8): in SUB, SHR, SUBN and
SHL the second statement reads the registers after the VF write (R133). -/

namespace Sys2Proof.Machine

open Host (Outcome)

/-- LD Vx,kk (R120). -/
def execLdImm (x : Reg) (kk : Byte) (s : State) : Outcome State Fault Refusal :=
  .next (s.setReg x kk)

/-- ADD Vx,kk (R121): no carry flag. -/
def execAddImm (x : Reg) (kk : Byte) (s : State) : Outcome State Fault Refusal :=
  .next (s.setReg x (s.reg x + kk))

/-- LD Vx,Vy (R122). -/
def execLdReg (x y : Reg) (s : State) : Outcome State Fault Refusal :=
  .next (s.setReg x (s.reg y))

/-- OR Vx,Vy (R123): VF is not cleared. -/
def execOrReg (x y : Reg) (s : State) : Outcome State Fault Refusal :=
  .next (s.setReg x (s.reg x ||| s.reg y))

/-- AND Vx,Vy (R124): VF is not cleared. -/
def execAndReg (x y : Reg) (s : State) : Outcome State Fault Refusal :=
  .next (s.setReg x (s.reg x &&& s.reg y))

/-- XOR Vx,Vy (R125): VF is not cleared. -/
def execXorReg (x y : Reg) (s : State) : Outcome State Fault Refusal :=
  .next (s.setReg x (s.reg x ^^^ s.reg y))

/-- ADD Vx,Vy (R126): both registers are read into the temporary first, VF is written before Vx. -/
def execAddReg (x y : Reg) (s : State) : Outcome State Fault Refusal :=
  let sum := exactSum (s.reg x) (s.reg y)
  let s₁ := s.setReg VF (carryFlag sum)
  .next (s₁.setReg x (BitVec.ofNat 8 sum))

/-- SUB Vx,Vy (R127). -/
def execSub (x y : Reg) (s : State) : Outcome State Fault Refusal :=
  let s₁ := s.setReg VF (greaterFlag (s.reg x) (s.reg y))
  .next (s₁.setReg x (s₁.reg x - s₁.reg y))

/-- SHR Vx (R128); the encoded y is ignored (spec/30_encoding.md R74). -/
def execShr (x : Reg) (s : State) : Outcome State Fault Refusal :=
  let s₁ := s.setReg VF (lowBitFlag (s.reg x))
  .next (s₁.setReg x (s₁.reg x >>> 1))

/-- SUBN Vx,Vy (R129). -/
def execSubn (x y : Reg) (s : State) : Outcome State Fault Refusal :=
  let s₁ := s.setReg VF (greaterFlag (s.reg y) (s.reg x))
  .next (s₁.setReg x (s₁.reg y - s₁.reg x))

/-- SHL Vx (R130); the encoded y is ignored (spec/30_encoding.md R74). -/
def execShl (x : Reg) (s : State) : Outcome State Fault Refusal :=
  let s₁ := s.setReg VF (highBitFlag (s.reg x))
  .next (s₁.setReg x (s₁.reg x <<< 1))

/-- RND Vx,kk (R131): one draw, masked by kk. -/
def execRnd (x : Reg) (kk : Byte) (s : State) : Outcome State Fault Refusal :=
  .next (s.countDraw.setReg x (s.rndByte &&& kk))

end Sys2Proof.Machine
end

