-- ==== Sys2Proof/Machine/Display.lean ====
section
/-! DEFINITION. CLS and DRW (spec/43_display.md). -/

namespace Sys2Proof.Machine

open Host (Outcome)

/-- CLS (R154): VF is not written. -/
def execCls (s : State) : Outcome State Fault Refusal := .next (s.setFb clearFb)

/-- DRW Vx,Vy,n (R155): coordinates and base are read first, VF is written once, at the end (D9). -/
def execDrw (x y : Reg) (n : Nat) (s : State) : Outcome State Fault Refusal :=
  match firstOutOfRange s.i n with
  | some a => .next (s.raise .memRangeRead (encode (.drw x y n)) a)
  | none =>
    let drawn := drawRows (s.reg x).toNat (s.reg y).toNat (s.readBytes s.i n) (s.fb, false)
    .next ((s.setFb drawn.1).setReg VF (collisionFlag drawn.2))

end Sys2Proof.Machine
end

