-- ==== Sys2Proof/Machine/Flow.lean ====
section
/-! DEFINITION. Control transfer and conditional skips (spec/40_flow.md). A meaning receives the state
after the fetch: PC is (A + 2) mod 65536 (spec/30_encoding.md R71). -/

namespace Sys2Proof.Machine

open Host (Outcome)

/-- RET (R100). -/
def execRet (s : State) : Outcome State Fault Refusal :=
  if s.sp = 0 then .next (s.raise .stackUnderflow (encode .ret) 0)
  else .next ((s.setPc s.stackTop).dropTop)

/-- JP nnn (R101). -/
def execJp (nnn : BitVec 12) (s : State) : Outcome State Fault Refusal :=
  .next (s.setPc (zextAddr nnn))

/-- CALL nnn (R102): the return address is the PC the fetch left. -/
def execCall (nnn : BitVec 12) (s : State) : Outcome State Fault Refusal :=
  if s.sp = 16 then .next (s.raise .stackOverflow (encode (.call nnn)) 0)
  else .next ((s.push s.pc).setPc (zextAddr nnn))

/-- JP V0,nnn (R103). -/
def execJpV0 (nnn : BitVec 12) (s : State) : Outcome State Fault Refusal :=
  .next (s.setPc (zextAddr nnn + zextByte (s.reg V0)))

/-- SE Vx,kk (R104). -/
def execSeImm (x : Reg) (kk : Byte) (s : State) : Outcome State Fault Refusal :=
  .next (s.skipIf (s.reg x == kk))

/-- SNE Vx,kk (R105). -/
def execSneImm (x : Reg) (kk : Byte) (s : State) : Outcome State Fault Refusal :=
  .next (s.skipIf (s.reg x != kk))

/-- SE Vx,Vy (R106). -/
def execSeReg (x y : Reg) (s : State) : Outcome State Fault Refusal :=
  .next (s.skipIf (s.reg x == s.reg y))

/-- SNE Vx,Vy (R107). -/
def execSneReg (x y : Reg) (s : State) : Outcome State Fault Refusal :=
  .next (s.skipIf (s.reg x != s.reg y))

end Sys2Proof.Machine
end

