-- ==== Sys2Proof/Machine/Index.lean ====
section
/-! DEFINITION. Index register and memory transfers (spec/42_index_memory.md). A memory instruction
checks every address of its access, in access order, before it writes anything
(spec/00_scope.md R13, spec/20_memory.md R56). -/

namespace Sys2Proof.Machine

open Host (Outcome)

/-- LD I,nnn (R141). -/
def execLdI (nnn : BitVec 12) (s : State) : Outcome State Fault Refusal :=
  .next (s.setI (zextAddr nnn))

/-- ADD I,Vx (R142): no flag. -/
def execAddI (x : Reg) (s : State) : Outcome State Fault Refusal :=
  .next (s.setI (s.i + zextByte (s.reg x)))

/-- LD F,Vx (R143). -/
def execLdF (x : Reg) (s : State) : Outcome State Fault Refusal :=
  .next (s.setI (glyphAddress (s.reg x)))

/-- LD B,Vx (R144). -/
def execLdB (x : Reg) (s : State) : Outcome State Fault Refusal :=
  match firstOutOfRange s.i 3 with
  | some a => .next (s.raise .memRangeWrite (encode (.ldB x)) a)
  | none => .next (s.writeBytes s.i (decimalDigits (s.reg x)))

/-- LD [I],Vx (R145). -/
def execLdMemVx (x : Reg) (s : State) : Outcome State Fault Refusal :=
  match firstOutOfRange s.i (blockLength x) with
  | some a => .next (s.raise .memRangeWrite (encode (.ldMemVx x)) a)
  | none =>
    .next ((s.writeBytes s.i (s.regsUpTo (blockLength x))).setI (s.i + blockStride x))

/-- LD Vx,[I] (R146): the addresses use I as it was at the start. -/
def execLdVxMem (x : Reg) (s : State) : Outcome State Fault Refusal :=
  match firstOutOfRange s.i (blockLength x) with
  | some a => .next (s.raise .memRangeRead (encode (.ldVxMem x)) a)
  | none =>
    .next ((s.setRegsFrom 0 (s.readBytes s.i (blockLength x))).setI (s.i + blockStride x))

end Sys2Proof.Machine
end

