-- ==== Sys2Proof/Machine/Input.lean ====
section
/-! DEFINITION. Key and timer instructions (spec/44_timers_keys.md). KEYS is the field of State, so it
does not change during a STEP (R170). -/

namespace Sys2Proof.Machine

open Host (Outcome)

/-- SKP Vx (R172). -/
def execSkp (x : Reg) (s : State) : Outcome State Fault Refusal :=
  .next (s.skipIf (s.isPressed (s.reg x)))

/-- SKNP Vx (R173). -/
def execSknp (x : Reg) (s : State) : Outcome State Fault Refusal :=
  .next (s.skipIf (!s.isPressed (s.reg x)))

/-- LD Vx,K (R174): with no key held PC goes back to A; else one held key, chosen by a draw. -/
def execLdVxK (x : Reg) (s : State) : Outcome State Fault Refusal :=
  match s.heldKeys with
  | [] => .next (s.setPc (s.pc - 2))
  | k :: ks => .next (s.countDraw.setReg x (keyByte (chooseKey s.draws k ks)))

/-- LD Vx,DT (R175). -/
def execLdVxDt (x : Reg) (s : State) : Outcome State Fault Refusal := .next (s.setReg x s.dt)

/-- LD DT,Vx (R176). -/
def execLdDtVx (x : Reg) (s : State) : Outcome State Fault Refusal := .next (s.setDt (s.reg x))

/-- LD ST,Vx (R177). -/
def execLdStVx (x : Reg) (s : State) : Outcome State Fault Refusal := .next (s.setSt (s.reg x))

end Sys2Proof.Machine
end

