-- ==== Sys2Proof/Machine/Step.lean ====
section
/-! DEFINITION. The transaction STEP (spec/30_encoding.md R71), and the word the next STEP fetches. -/

namespace Sys2Proof.Machine

/-- STEP (R71, R202): nothing while halted; else fetch, advance PC, decode, run the instruction or
treat the unmatched opcode, and end the STEP. A fault is a next state (R201; log 2). -/
def step (s : State) : Host.Outcome State Fault Refusal :=
  if s.halted then .next s
  else
    match s.fetch with
    | .error addr => .next (s.raiseFetch addr)
    | .ok op =>
      match decode op with
      | .error _ => .next (s.advancePc.runUnmatched op).finishStep
      | .ok i =>
        match exec i s.advancePc with
        | .next t => .next t.finishStep
        | .fault r => .fault r
        | .refused r => .refused r

/-- `s` with a word stored where the next STEP fetches: two bytes at PC, the high one first. The bits
of `w` above `nbits` are 0. Where PC leaves no room for an opcode, `s` itself (log 10). -/
def State.withFetchWord (s : State) (nbits w : Nat) : State :=
  if outOfRange s.pc || outOfRange (s.pc + 1) then s
  else s.storeOpcode s.pc (BitVec.ofNat 16 (w % 2 ^ nbits))

end Sys2Proof.Machine
end

