-- ==== Sys2Proof/Machine/HostPort.lean ====
section
/-! DEFINITION. The host interface (spec/60_exceptions.md R215): the atomic transactions, RESET and LOAD
(spec/70_reset_and_hazards.md R240 to R243), key events (spec/44_timers_keys.md R171), and what the
host can read. The order of transactions is the host's; claims quantify over it (log 10). -/

namespace Sys2Proof.Machine

/-- The transactions that can change the block (R215). -/
inductive Transaction where
  /-- STEP: one fetch-and-execute. -/
  | step
  /-- TICK, which the host issues in FREE mode only (R211). -/
  | tick
  /-- RESET, with or without a program image (R240). -/
  | reset (image : Option (List Byte))
  /-- LOAD of a program image at ENTRY (R242). -/
  | load (image : List Byte)
  /-- press(k) (R171). -/
  | press (k : Key)
  /-- release(k) (R171). -/
  | release (k : Key)
deriving DecidableEq, Repr

/-- The font bytes are FONT again: its addresses are unlisted (R54, R240). -/
def Memory.reloadFont (m : List Host.Cell) : List Host.Cell := m.filter fun c => decide (80 ≤ c.1)

/-- Every action of RESET but the LOAD of an image (R240). KEYS, MEM outside the font and the
parameters stay (D14, D21). -/
def State.resetEngine (s : State) : State :=
  { s with
    v := Vector.replicate 16 0
    i := 0
    sp := 0
    stack := Vector.replicate 16 0
    dt := 0
    st := 0
    pc := s.params.entry
    mem := Memory.reloadFont s.mem
    fb := clearFb
    fault := FaultReg.clear
    prescale := 0 }

/-- LOAD(ENTRY, P) (R242): refused for an empty image and for one that does not fit. -/
def State.load (s : State) (image : List Byte) : Host.Outcome State Fault Refusal :=
  if s.params.valid = false then .fault .parameterOutOfRange
  else if image = [] then .refused .loadEmpty
  else if 0x1000 < s.params.entry.toNat + image.length then .refused .loadTooLarge
  else .next (s.writeBytes s.params.entry image)

/-- RESET (R240). The image is loaded when one is given; a refused image leaves no run (log 11). -/
def State.resetWith (s : State) (image : Option (List Byte)) : Host.Outcome State Fault Refusal :=
  if s.params.valid = false then .fault .parameterOutOfRange
  else
    match image with
    | none => .next s.resetEngine
    | some P => s.resetEngine.load P

/-- TICK as the host's transaction (R211). -/
def State.hostTick (s : State) : Host.Outcome State Fault Refusal :=
  match s.params.timerMode with
  | .free => .next s.tick
  | .everyN => .refused .tickNotOffered

/-- press(k): bit k of KEYS becomes 1 (R171). -/
def State.press (s : State) (k : Key) : State := { s with keys := s.keys ||| BitVec.twoPow 16 k.val }

/-- release(k): bit k of KEYS becomes 0 (R171). -/
def State.release (s : State) (k : Key) : State :=
  { s with keys := s.keys &&& ~~~(BitVec.twoPow 16 k.val) }

/-- One transaction. -/
def transact (a : Transaction) (s : State) : Host.Outcome State Fault Refusal :=
  match a with
  | .step => step s
  | .tick => s.hostTick
  | .reset image => s.resetWith image
  | .load image => s.load image
  | .press k => .next (s.press k)
  | .release k => .next (s.release k)

/-- A sequence of transactions, the first to stop ending it (R244). -/
def transactAll : List Transaction → State → Host.Outcome State Fault Refusal
  | [], s => .next s
  | a :: as, s =>
    match transact a s with
    | .next t => transactAll as t
    | .fault r => .fault r
    | .refused r => .refused r

/-- Boot: power-on, then RESET with the program image (R241, R243). -/
def boot (p : Params) (image : List Byte) : Host.Outcome State Fault Refusal :=
  (State.powerOn p).resetWith (some image)

/-! ## What the host reads (R215); every field of State can be read, with no effect. -/

/-- get_pixel(X, Y): 1 or 0, coordinates wrapped (R153). -/
def State.getPixel (s : State) (X Y : Nat) : Nat := (pixel s.fb X Y).toNat

/-- The dimensions of the framebuffer, columns then rows: constants (R153). -/
def dimensions : Nat × Nat := (64, 32)

/-- The output SOUND = (ST != 0) (R27). -/
def State.sound (s : State) : Bool := s.st != 0

/-- FAULT.code as the four bits the host reads (R31). -/
def FaultCode.bits : FaultCode → BitVec 4
  | .none => 0
  | .unknownOpcode => 1
  | .stackOverflow => 2
  | .stackUnderflow => 3
  | .memRangeFetch => 4
  | .memRangeRead => 5
  | .memRangeWrite => 6

end Sys2Proof.Machine
end

