-- ==== Sys2Proof/Safety.lean ====
section
/-! DEFINITION. The terms claims use: the invariant of the block, a run and its end, and frames. -/

namespace Sys2Proof.Machine

/-- The shapes FAULT can have (spec/10_state.md R31, spec/60_exceptions.md R200): all zero without a
fault; no opcode for a fetch fault; an address for codes 4 to 6 only, and that one above 0xFFF. -/
def FaultReg.wf (f : FaultReg) : Bool :=
  match f.code with
  | .none => decide (f = FaultReg.clear)
  | .unknownOpcode | .stackOverflow | .stackUnderflow => decide (f.addr = 0)
  | .memRangeFetch => decide (f.opcode = 0) && outOfRange f.addr
  | .memRangeRead | .memRangeWrite => outOfRange f.addr

/-- What is true of every state of a machine that has a run. -/
structure Inv (s : State) : Prop where
  /-- The parameters are in the ranges of R7. -/
  params : s.params.valid = true
  /-- MEM is in canonical form: rising addresses at most 0xFFF (R50). -/
  mem : Memory.wf s.params.font s.mem = true
  /-- SP never holds 17 to 31 (R24). -/
  sp : s.sp.toNat ≤ 16
  /-- PRESCALE holds 0 to TIMER_N - 1 (R32). -/
  prescale : s.prescale < s.params.timerN
  /-- FAULT has one of its shapes (R31, R200). -/
  fault : s.fault.wf = true
  /-- A halted engine stands at the instruction that faulted: PC = FAULT.ipc (R201). -/
  faultPc : s.halted = true → s.pc = s.fault.ipc

/-- The states of a run of the machine with parameters p: the booted state and whatever
transactions make of it (spec/70_reset_and_hazards.md R243, R244). -/
inductive Reachable (p : Params) : State → Prop where
  | boot (image : List Byte) (s : State) : boot p image = .next s → Reachable p s
  | transact (a : Transaction) (s t : State) :
      Reachable p s → transact a s = .next t → Reachable p t

/-- A run that ends here ends clean: FAULT.code = NONE (R244). -/
def State.clean (s : State) : Bool := !s.halted

/-- The parts of State a frame may name, beside single general registers. -/
inductive Part where
  | i | pc | sp | stack | dt | st | mem | fb | fault | prescale | draws
deriving DecidableEq, Repr

/-- `t` agrees with `s` in every general register outside `regs` and in every part outside `parts`;
KEYS and the parameters agree always. MEM agrees byte by byte. -/
structure Frame (regs : List Reg) (parts : List Part) (s t : State) : Prop where
  reg : ∀ r : Reg, r ∉ regs → t.reg r = s.reg r
  i : Part.i ∉ parts → t.i = s.i
  pc : Part.pc ∉ parts → t.pc = s.pc
  sp : Part.sp ∉ parts → t.sp = s.sp
  stack : Part.stack ∉ parts → t.stack = s.stack
  dt : Part.dt ∉ parts → t.dt = s.dt
  st : Part.st ∉ parts → t.st = s.st
  mem : Part.mem ∉ parts → ∀ a : Word, t.readByte a = s.readByte a
  fb : Part.fb ∉ parts → t.fb = s.fb
  fault : Part.fault ∉ parts → t.fault = s.fault
  prescale : Part.prescale ∉ parts → t.prescale = s.prescale
  draws : Part.draws ∉ parts → t.draws = s.draws
  keys : t.keys = s.keys
  params : t.params = s.params

/-! ## What a STEP owes, in the spec's own terms -/

/-- The opcode the bytes at PC and PC + 1 spell, big-endian (R57, R70). -/
def State.opcodeAtPc (s : State) : Word := opcodeOfBytes (s.readByte s.pc) (s.readByte (s.pc + 1))

/-- `a` is the first of base, base + 1, …, base + n - 1 (modulo 65536) above 0xFFF (R56). -/
def FirstBeyond (base : Word) (n : Nat) (a : Word) : Prop :=
  ∃ k < n, a = base + BitVec.ofNat 16 k ∧ 0xFFF < a.toNat ∧
    ∀ j < k, (base + BitVec.ofNat 16 j).toNat ≤ 0xFFF

/-- The one execution check an instruction has, failed (spec/60_exceptions.md R200, R204). -/
def ExecFaultDue (i : Instr) (s : State) (c : FaultCode) (a : Word) : Prop :=
  match i with
  | .ret => s.sp = 0 ∧ c = .stackUnderflow ∧ a = 0
  | .call _ => s.sp = 16 ∧ c = .stackOverflow ∧ a = 0
  | .drw _ _ n => c = .memRangeRead ∧ FirstBeyond s.i n a
  | .ldVxMem x => c = .memRangeRead ∧ FirstBeyond s.i (x.val + 1) a
  | .ldB _ => c = .memRangeWrite ∧ FirstBeyond s.i 3 a
  | .ldMemVx x => c = .memRangeWrite ∧ FirstBeyond s.i (x.val + 1) a
  | _ => False

/-- The fault the next STEP owes: FAULT.code, FAULT.opcode and FAULT.addr, by the checks in their
order: fetch range, decode, the instruction's own check (R200, R204). -/
def FaultDue (s : State) (c : FaultCode) (op a : Word) : Prop :=
  if 0xFFE < s.pc.toNat then
    c = .memRangeFetch ∧ op = 0 ∧ a = if s.pc = 0xFFF then 0x1000 else s.pc
  else
    op = s.opcodeAtPc ∧
      match decode op with
      | .error _ => s.params.strict = true ∧ c = .unknownOpcode ∧ a = 0
      | .ok i => ExecFaultDue i s c a

/-- The general registers an instruction may write (spec/10_state.md R34): the one its x names, VF
for the flag-writing ones, V0 to Vx for LD Vx,[I]. -/
def writableRegs : Instr → List Reg
  | .ldImm x _ | .addImm x _ | .ldReg x _ | .orReg x _ | .andReg x _ | .xorReg x _ | .rnd x _
  | .ldVxDt x | .ldVxK x => [x]
  | .addReg x _ | .sub x _ | .shr x _ | .subn x _ | .shl x _ => [x, VF]
  | .drw _ _ _ => [VF]
  | .ldVxMem x => (List.finRange 16).filter fun r => decide (r ≤ x)
  | _ => []

/-- The other parts of State an instruction may write (R34). PC is what the fetch left unless it is
named here. `draws` is the model's own count of the environment's answers. -/
def writableParts : Instr → List Part
  | .ret | .call _ => [.pc, .sp, .stack]
  | .jp _ | .jpV0 _ | .seImm _ _ | .sneImm _ _ | .seReg _ _ | .sneReg _ _ | .skp _ | .sknp _ => [.pc]
  | .ldVxK _ => [.pc, .draws]
  | .rnd _ _ => [.draws]
  | .ldI _ | .addI _ | .ldF _ => [.i]
  | .ldB _ => [.mem]
  | .ldMemVx _ => [.i, .mem]
  | .ldVxMem _ => [.i]
  | .ldDtVx _ => [.dt]
  | .ldStVx _ => [.st]
  | .cls | .drw _ _ _ => [.fb]
  | _ => []

/-- Whether DRW Vx,Vy,n toggles pixel (X, Y): some 1 bit of some row of the sprite at I falls there,
columns and rows wrapped (spec/43_display.md R155). -/
def SpriteCovers (s : State) (x y : Reg) (n X Y : Nat) : Prop :=
  ∃ row < n, ∃ col < 8, (s.readByte (s.i + BitVec.ofNat 16 row)).getLsbD (7 - col) = true ∧
    X = ((s.reg x).toNat + col) % 64 ∧ Y = ((s.reg y).toNat + row) % 32

end Sys2Proof.Machine
end

