-- ==== Sys2Proof/Certificates/Slice0/Obligations.lean ====
section
/-! DEFINITION. The statements for the provers. `exec i s` is stated on the state after the fetch: its PC
is (A + 2) mod 65536, so `s.pc - 2` is the address A of the instruction (spec/30_encoding.md R71).
Every instruction statement also says the encoding its rule gives. -/

open Sys2Proof Sys2Proof.Machine

/-! ## Encoding -/

/-- One word for each row of R80, written from its pattern (R74), decodes to its instruction. -/
def Obligations.WordsOfTheOpcodeMapDecode : Prop :=
  decode 0x00E0 = .ok .cls ∧ decode 0x00EE = .ok .ret ∧ decode 0x1228 = .ok (.jp 0x228) ∧
  decode 0x2AF2 = .ok (.call 0xAF2) ∧ decode 0x331F = .ok (.seImm 3 0x1F) ∧
  decode 0x4500 = .ok (.sneImm 5 0x00) ∧ decode 0x5120 = .ok (.seReg 1 2) ∧
  decode 0x9120 = .ok (.sneReg 1 2) ∧ decode 0x6A42 = .ok (.ldImm 10 0x42) ∧
  decode 0x7001 = .ok (.addImm 0 0x01) ∧ decode 0x8120 = .ok (.ldReg 1 2) ∧
  decode 0x8121 = .ok (.orReg 1 2) ∧ decode 0x8122 = .ok (.andReg 1 2) ∧
  decode 0x8123 = .ok (.xorReg 1 2) ∧ decode 0x8124 = .ok (.addReg 1 2) ∧
  decode 0x8125 = .ok (.sub 1 2) ∧ decode 0x8506 = .ok (.shr 5 0) ∧
  decode 0x8127 = .ok (.subn 1 2) ∧ decode 0x81FE = .ok (.shl 1 15) ∧
  decode 0xA420 = .ok (.ldI 0x420) ∧ decode 0xB300 = .ok (.jpV0 0x300) ∧
  decode 0xC30F = .ok (.rnd 3 0x0F) ∧ decode 0xD125 = .ok (.drw 1 2 5) ∧
  decode 0xE49E = .ok (.skp 4) ∧ decode 0xE4A1 = .ok (.sknp 4) ∧
  decode 0xF507 = .ok (.ldVxDt 5) ∧ decode 0xF515 = .ok (.ldDtVx 5) ∧
  decode 0xF30A = .ok (.ldVxK 3) ∧ decode 0xF118 = .ok (.ldStVx 1) ∧
  decode 0xF21E = .ok (.addI 2) ∧ decode 0xF329 = .ok (.ldF 3) ∧ decode 0xF033 = .ok (.ldB 0) ∧
  decode 0xF255 = .ok (.ldMemVx 2) ∧ decode 0xF265 = .ok (.ldVxMem 2)

/-- Decoding the word of a well-formed instruction gives the instruction back, for every operand. That
the y of SHR and SHL is an operand at all is the model's choice (log 18). -/
def Obligations.DecodeOfEncode : Prop :=
  ∀ i : Instr, i.wellFormed = true → decode (encode i) = .ok i

/-- Encoding the instruction a word decodes to gives the word back, and a decoded instruction is well
formed. For SHR and SHL this holds only by the model's choice to keep the ignored y in the syntax
(log 18): to the spec every y is the same instruction (R74, R82). -/
def Obligations.EncodeOfDecode : Prop :=
  ∀ (op : Word) (i : Instr), decode op = .ok i → encode i = op ∧ i.wellFormed = true

/-- R78: the decoder selects the row with `op & mask == match`; it is the only such row; where no row
matches, the word is unmatched. -/
def Obligations.DecoderSelectsTheMatchingRow : Prop :=
  ∀ op : Word,
    (∀ i, decode op = .ok i → rowOf i ∈ opcodeTable ∧ op &&& (rowOf i).mask = (rowOf i).value ∧
      ∀ r ∈ opcodeTable, op &&& r.mask = r.value → r = rowOf i) ∧
    (∀ e, decode op = .error e → ∀ r ∈ opcodeTable, op &&& r.mask ≠ r.value)

/-- The unmatched words are the ones R83 lists, class by class. -/
def Obligations.UnmatchedWordsByClass : Prop :=
  ∀ op : Word, (∃ e, decode op = .error e) ↔
    (op.toNat / 0x1000 = 0x0 ∧ op ≠ 0x00E0 ∧ op ≠ 0x00EE) ∨
    (op.toNat / 0x1000 = 0x5 ∧ op.toNat % 0x10 ≠ 0) ∨
    (op.toNat / 0x1000 = 0x8 ∧ op.toNat % 0x10 ∈ [0x8, 0x9, 0xA, 0xB, 0xC, 0xD, 0xF]) ∨
    (op.toNat / 0x1000 = 0x9 ∧ op.toNat % 0x10 ≠ 0) ∨
    (op.toNat / 0x1000 = 0xE ∧ op.toNat % 0x100 ∉ [0x9E, 0xA1]) ∨
    (op.toNat / 0x1000 = 0xF ∧
      op.toNat % 0x100 ∉ [0x07, 0x0A, 0x15, 0x18, 0x1E, 0x29, 0x33, 0x55, 0x65])

/-! ## STEP -/

/-- R71: a STEP of a running engine with PC at most 0xFFE runs the instruction the two bytes at PC
decode to, on the state whose PC is past it, and then ends the STEP. -/
def Obligations.StepRunsTheDecodedInstruction : Prop :=
  ∀ (s : State) (i : Instr), s.halted = false → s.pc.toNat ≤ 0xFFE → decode s.opcodeAtPc = .ok i →
    step s =
      match exec i (s.setPc (s.pc + 2)) with
      | .next t => .next t.finishStep
      | .fault r => .fault r
      | .refused r => .refused r

/-- R70: the opcode is the two bytes at PC, the one at the lower address first; a fetch at PC above
0xFFE faults with the first address above 0xFFF and no opcode. -/
def Obligations.FetchReadsTwoBytesBigEndian : Prop :=
  ∀ s : State,
    (s.pc.toNat ≤ 0xFFE → ∃ op, s.fetch = .ok op ∧
      op.toNat = (s.readByte s.pc).toNat * 256 + (s.readByte (s.pc + 1)).toNat) ∧
    (s.halted = false → 0xFFE < s.pc.toNat →
      step s = .next { s with fault :=
        { code := .memRangeFetch, ipc := s.pc, opcode := 0,
          addr := if s.pc = 0xFFF then 0x1000 else s.pc } })

/-- R84: an unmatched opcode advances PC and nothing else with STRICT = false (the executed STEP then
ends as every other), and faults with STRICT = true. -/
def Obligations.UnmatchedOpcodeIsNoOpOrFault : Prop :=
  ∀ (s : State) (e : Unmatched), s.halted = false → s.pc.toNat ≤ 0xFFE →
    decode s.opcodeAtPc = .error e →
    (s.params.strict = false → step s = .next (s.setPc (s.pc + 2)).advancePrescale) ∧
    (s.params.strict = true → step s = .next { s with fault :=
      { code := .unknownOpcode, ipc := s.pc, opcode := s.opcodeAtPc, addr := 0 } })

/-- R202: while FAULT.code is not NONE a STEP changes nothing, TICK counts down, key events change
KEYS, and no transaction but RESET ends the halt. -/
def Obligations.HaltedEngineWaitsForReset : Prop :=
  ∀ s : State, s.halted = true →
    transact .step s = .next s ∧
    (s.params.timerMode = .free → transact .tick s = .next s.tick) ∧
    (∀ k, transact (.press k) s = .next (s.press k)) ∧
    (∀ k, transact (.release k) s = .next (s.release k)) ∧
    (∀ image t, transact (.reset image) s = .next t → t.halted = false) ∧
    (∀ a t, transact a s = .next t → t.fault ≠ s.fault → ∃ image, a = .reset image)

/-- Every STEP, of every state, answers a next state. -/
def Obligations.EveryStepAnswersNext : Prop := ∀ s : State, ∃ t, step s = .next t

/-- R200, R201, R204: by the causes of R200, checked in the order of R204, a STEP of a running engine
that owes a fault leaves exactly the state before it with FAULT changed; one that owes none leaves a
running engine. -/
def Obligations.StepFaultsExactlyWhenDue : Prop :=
  ∀ s : State, s.halted = false →
    (∀ c op a, FaultDue s c op a →
      step s = .next { s with fault := { code := c, ipc := s.pc, opcode := op, addr := a } }) ∧
    ((¬ ∃ c op a, FaultDue s c op a) → ∃ t, step s = .next t ∧ t.halted = false)

/-- R211: in EVERY_N mode an executed STEP counts in PRESCALE, and the TIMER_N-th resets it and
performs one TICK after the instruction's effect; in FREE mode a STEP neither counts nor ticks. -/
def Obligations.ExecutedStepsAdvancePrescale : Prop :=
  ∀ (s t : State) (i : Instr), s.halted = false → s.pc.toNat ≤ 0xFFE →
    decode s.opcodeAtPc = .ok i → exec i (s.setPc (s.pc + 2)) = .next t →
    (t.halted = true → step s = .next t ∧ t.prescale = s.prescale) ∧
    (t.halted = false → s.params.timerMode = .free → step s = .next t) ∧
    (t.halted = false → s.params.timerMode = .everyN → s.prescale + 1 ≠ s.params.timerN →
      step s = .next { t with prescale := s.prescale + 1 }) ∧
    (t.halted = false → s.params.timerMode = .everyN → s.prescale + 1 = s.params.timerN →
      step s = .next { t with
        prescale := 0
        dt := if 0 < t.dt.toNat then t.dt - 1 else t.dt
        st := if 0 < t.st.toNat then t.st - 1 else t.st })

/-- R210: TICK counts each timer down by one, saturating at 0 on its own, and changes nothing else,
halted or not. -/
def Obligations.TickCountsBothTimersDown : Prop :=
  ∀ s : State,
    s.tick.dt.toNat = s.dt.toNat - 1 ∧ s.tick.st.toNat = s.st.toNat - 1 ∧
    s.tick.sound = decide (s.tick.st ≠ 0) ∧ s.tick.v = s.v ∧ s.tick.mem = s.mem ∧
    Frame [] [.dt, .st] s s.tick ∧
    (s.params.timerMode = .free → transact .tick s = .next s.tick)

/-! ## Rules about every instruction -/

/-- The written-by column of the access matrix R34: when no fault is raised an instruction writes the
registers and parts the matrix gives it and nothing else; when one is, PC and FAULT only. -/
def Obligations.InstructionsWriteOnlyWhatTheMatrixSays : Prop :=
  ∀ (i : Instr) (s t : State), s.halted = false → exec i s = .next t →
    (t.halted = false → Frame (writableRegs i) (writableParts i) s t) ∧
    (t.halted = true → Frame [] [.pc, .fault] s t)

/-- R27: no instruction reads ST. Two runs of any instruction that differ in ST alone differ in ST
alone afterwards, and not even there after LD ST,Vx. The environment answers both runs alike, which
is the model's choice (log 4). -/
def Obligations.NoInstructionReadsTheSoundTimer : Prop :=
  ∀ (i : Instr) (s t : State) (b : Byte), exec i s = .next t →
    ((∀ x, i ≠ .ldStVx x) → exec i { s with st := b } = .next { t with st := b }) ∧
    (∀ x, i = .ldStVx x → exec i { s with st := b } = .next t)

/-- R30, R34: only SKP, SKNP and LD Vx,K read KEYS. The environment answers both runs alike, which is
the model's choice (log 4). -/
def Obligations.OnlyKeyInstructionsReadKeys : Prop :=
  ∀ (i : Instr) (s t : State) (k : BitVec 16),
    (∀ x, i ≠ .skp x) → (∀ x, i ≠ .sknp x) → (∀ x, i ≠ .ldVxK x) → exec i s = .next t →
    exec i { s with keys := k } = .next { t with keys := k }

/-! ## Invariants -/

/-- The state after power-on and RESET meets the invariant, for every valid choice of parameters. -/
def Obligations.ResetMeetsTheInvariant : Prop :=
  Inv State.reset ∧ ∀ p : Params, p.valid = true → Inv (State.powerOn p)

/-- Every STEP keeps the invariant, from every state that meets it. -/
def Obligations.StepKeepsTheInvariant : Prop :=
  ∀ s t : State, Inv s → step s = .next t → Inv t

/-- Every transaction keeps the invariant, from every state that meets it. -/
def Obligations.TransactionsKeepTheInvariant : Prop :=
  ∀ (a : Transaction) (s t : State), Inv s → transact a s = .next t → Inv t

/-- Every state of every run from a boot meets the invariant: SP is at most 16, PRESCALE is below
TIMER_N, MEM is canonical, FAULT has one of its shapes, and a halted engine stands at FAULT.ipc. -/
def Obligations.ReachableStatesMeetTheInvariant : Prop :=
  ∀ (p : Params) (s : State), Reachable p s → Inv s ∧ s.params = p

/-! ## Memory -/

/-- A read returns the last value written to its address, and a write touches no other address, in
every state and at every address (R59, R61). -/
def Obligations.ReadReturnsTheLastWrite : Prop :=
  ∀ (s : State) (a c : Word) (b : Byte),
    (s.writeByte a b).readByte c = (if c = a then b else s.readByte c) ∧
    Frame [] [.mem] s (s.writeByte a b)

/-- Equal memories are equal data: two canonical memories that know the same byte at every address
are the same list. -/
def Obligations.CanonicalMemoriesAreEqualData : Prop :=
  ∀ (font : Vector Byte 80) (m m' : List Host.Cell),
    Memory.wf font m = true → Memory.wf font m' = true →
    (∀ a : Nat, (Memory.lookup m a).or (Memory.blank font a) =
      (Memory.lookup m' a).or (Memory.blank font a)) → m = m'

/-- R63: what an instruction stores is what the next fetch reads. LD [I],Vx with I at the PC of the
next STEP puts V0 and V1 there as its opcode. -/
def Obligations.StoredBytesAreFetchedNext : Prop :=
  ∀ (s : State) (x : Reg), s.i = s.pc → 1 ≤ x.val → s.i.toNat + x.val ≤ 0xFFF →
    ∃ t, exec (.ldMemVx x) s = .next t ∧ t.fetch = .ok (opcodeOfBytes (s.reg 0) (s.reg 1))

/-! ## Control transfer -/

/-- R102: CALL nnn. -/
def Obligations.CallPushesTheReturnAddress : Prop :=
  ∀ (nnn : BitVec 12) (s : State),
    decode (formNNN 0x2 nnn) = .ok (.call nnn) ∧
    (s.sp ≠ 16 → ∃ t, exec (.call nnn) s = .next t ∧
      t.sp = s.sp + 1 ∧ t.stack[(s.sp + 1).toNat % 16] = s.pc ∧ t.pc.toNat = nnn.toNat ∧
      (∀ j : Fin 16, j.val ≠ (s.sp + 1).toNat % 16 → t.stack[j] = s.stack[j]) ∧
      Frame [] [.pc, .sp, .stack] s t) ∧
    (s.sp = 16 → exec (.call nnn) s = .next { s with
      pc := s.pc - 2
      fault := { code := .stackOverflow, ipc := s.pc - 2, opcode := formNNN 0x2 nnn, addr := 0 } })

/-- R100: RET. -/
def Obligations.ReturnPopsTheStack : Prop :=
  ∀ s : State,
    decode 0x00EE = .ok .ret ∧
    (s.sp ≠ 0 → ∃ t, exec .ret s = .next t ∧
      t.pc = s.stack[s.sp.toNat % 16] ∧ t.sp = s.sp - 1 ∧ Frame [] [.pc, .sp] s t) ∧
    (s.sp = 0 → exec .ret s = .next { s with
      pc := s.pc - 2
      fault := { code := .stackUnderflow, ipc := s.pc - 2, opcode := 0x00EE, addr := 0 } })

/-- A RET that finds the stack a CALL left, wherever PC then is, goes back to the address after the
CALL with the SP of before it (R100, R102, R108). -/
def Obligations.ReturnUndoesCall : Prop :=
  ∀ (nnn : BitVec 12) (s t u : State), s.sp.toNat < 16 → exec (.call nnn) s = .next t →
    u.sp = t.sp → u.stack = t.stack →
    ∃ w, exec .ret u = .next w ∧ w.pc = s.pc ∧ w.sp = s.sp

/-- R101: JP nnn. -/
def Obligations.JumpIsAbsolute : Prop :=
  ∀ (nnn : BitVec 12) (s : State),
    decode (formNNN 0x1 nnn) = .ok (.jp nnn) ∧
    ∃ t, exec (.jp nnn) s = .next t ∧ t.pc.toNat = nnn.toNat ∧ Frame [] [.pc] s t

/-- R103: JP V0,nnn; V0 is added in full, whatever op[11:8] is, and the sum never wraps. -/
def Obligations.IndexedJumpAddsV0 : Prop :=
  ∀ (nnn : BitVec 12) (s : State),
    decode (formNNN 0xB nnn) = .ok (.jpV0 nnn) ∧
    ∃ t, exec (.jpV0 nnn) s = .next t ∧ t.pc.toNat = nnn.toNat + (s.reg 0).toNat ∧
      Frame [] [.pc] s t

/-- R104 to R107, R109: the four compare-and-skip instructions; a skip adds 2 to the PC the fetch
left. -/
def Obligations.ComparesSkipOneInstruction : Prop :=
  ∀ (x y : Reg) (kk : Byte) (s : State),
    (decode (formXKK 0x3 x kk) = .ok (.seImm x kk) ∧
      ∃ t, exec (.seImm x kk) s = .next t ∧
        t.pc = (if s.reg x = kk then s.pc + 2 else s.pc) ∧ Frame [] [.pc] s t) ∧
    (decode (formXKK 0x4 x kk) = .ok (.sneImm x kk) ∧
      ∃ t, exec (.sneImm x kk) s = .next t ∧
        t.pc = (if s.reg x = kk then s.pc else s.pc + 2) ∧ Frame [] [.pc] s t) ∧
    (decode (formXYN 0x5 x y 0) = .ok (.seReg x y) ∧
      ∃ t, exec (.seReg x y) s = .next t ∧
        t.pc = (if s.reg x = s.reg y then s.pc + 2 else s.pc) ∧ Frame [] [.pc] s t) ∧
    (decode (formXYN 0x9 x y 0) = .ok (.sneReg x y) ∧
      ∃ t, exec (.sneReg x y) s = .next t ∧
        t.pc = (if s.reg x = s.reg y then s.pc else s.pc + 2) ∧ Frame [] [.pc] s t)

/-! ## Register loads, ALU and random -/

/-- R120 to R125: loads, ADD Vx,kk and logic write Vx and nothing else; VF only when x = F. -/
def Obligations.LoadsAndLogicWriteVxOnly : Prop :=
  ∀ (x y : Reg) (kk : Byte) (s : State),
    (decode (formXKK 0x6 x kk) = .ok (.ldImm x kk) ∧
      ∃ t, exec (.ldImm x kk) s = .next t ∧ t.reg x = kk ∧ Frame [x] [] s t) ∧
    (decode (formXKK 0x7 x kk) = .ok (.addImm x kk) ∧
      ∃ t, exec (.addImm x kk) s = .next t ∧
        (t.reg x).toNat = ((s.reg x).toNat + kk.toNat) % 256 ∧ Frame [x] [] s t) ∧
    (decode (formXYN 0x8 x y 0x0) = .ok (.ldReg x y) ∧
      ∃ t, exec (.ldReg x y) s = .next t ∧ t.reg x = s.reg y ∧ Frame [x] [] s t) ∧
    (decode (formXYN 0x8 x y 0x1) = .ok (.orReg x y) ∧
      ∃ t, exec (.orReg x y) s = .next t ∧ t.reg x = s.reg x ||| s.reg y ∧ Frame [x] [] s t) ∧
    (decode (formXYN 0x8 x y 0x2) = .ok (.andReg x y) ∧
      ∃ t, exec (.andReg x y) s = .next t ∧ t.reg x = s.reg x &&& s.reg y ∧ Frame [x] [] s t) ∧
    (decode (formXYN 0x8 x y 0x3) = .ok (.xorReg x y) ∧
      ∃ t, exec (.xorReg x y) s = .next t ∧ t.reg x = s.reg x ^^^ s.reg y ∧ Frame [x] [] s t)

/-- R126: ADD Vx,Vy; with x = F the sum is what VF keeps. The cases x = F and y = F are among those of
the spec's decision D8, statements in sequence (log 16). -/
def Obligations.AddSetsTheCarry : Prop :=
  ∀ (x y : Reg) (s : State),
    decode (formXYN 0x8 x y 0x4) = .ok (.addReg x y) ∧
    ∃ t, exec (.addReg x y) s = .next t ∧
      (t.reg x).toNat = ((s.reg x).toNat + (s.reg y).toNat) % 256 ∧
      (x ≠ VF → t.reg VF = if 255 < (s.reg x).toNat + (s.reg y).toNat then 1 else 0) ∧
      Frame [x, VF] [] s t

/-- R127, R129: SUB and SUBN. The flag f is the strict comparison; it is in VF before the operands of
the difference are read: the clauses x = F and y = F rest on the spec's own decision D8,
statements in sequence (log 16). -/
def Obligations.SubtractionsSetNotBorrowFirst : Prop :=
  ∀ (x y : Reg) (s : State) (f g : Byte),
    f = (if (s.reg y).toNat < (s.reg x).toNat then 1 else 0) →
    g = (if (s.reg x).toNat < (s.reg y).toNat then 1 else 0) →
    (decode (formXYN 0x8 x y 0x5) = .ok (.sub x y) ∧
      ∃ t, exec (.sub x y) s = .next t ∧
        t.reg x = (if x = VF then f else s.reg x) - (if y = VF then f else s.reg y) ∧
        (x ≠ VF → t.reg VF = f) ∧ Frame [x, VF] [] s t) ∧
    (decode (formXYN 0x8 x y 0x7) = .ok (.subn x y) ∧
      ∃ t, exec (.subn x y) s = .next t ∧
        t.reg x = (if y = VF then g else s.reg y) - (if x = VF then g else s.reg x) ∧
        (x ≠ VF → t.reg VF = g) ∧ Frame [x, VF] [] s t)

/-- R128, R130: SHR and SHL, for every value of the ignored y. The bit shifted out is in VF before
Vx is read to be shifted: the clauses x = F rest on the spec's own decision D8, statements in
sequence (log 16). -/
def Obligations.ShiftsKeepTheBitShiftedOut : Prop :=
  ∀ (x y : Reg) (s : State),
    (decode (formXYN 0x8 x y 0x6) = .ok (.shr x y) ∧
      ∃ t, exec (.shr x y) s = .next t ∧
        (t.reg x).toNat = (if x = VF then (s.reg x).toNat % 2 else (s.reg x).toNat) / 2 ∧
        (x ≠ VF → (t.reg VF).toNat = (s.reg x).toNat % 2) ∧ Frame [x, VF] [] s t) ∧
    (decode (formXYN 0x8 x y 0xE) = .ok (.shl x y) ∧
      ∃ t, exec (.shl x y) s = .next t ∧
        (t.reg x).toNat =
          (if x = VF then (s.reg x).toNat / 128 else (s.reg x).toNat) * 2 % 256 ∧
        (x ≠ VF → (t.reg VF).toNat = (s.reg x).toNat / 128) ∧ Frame [x, VF] [] s t)

/-- R133: the table of what the flag-writing ALU instructions compute when VF is an operand. The spec
derives it under its decision D8, statements in sequence (log 16). -/
def Obligations.VfAsAnOperandFollowsTheTable : Prop :=
  ∀ (x y : Reg) (s t : State), x ≠ VF → y ≠ VF →
    (exec (.addReg VF y) s = .next t →
      (t.reg VF).toNat = ((s.reg VF).toNat + (s.reg y).toNat) % 256) ∧
    (exec (.addReg x VF) s = .next t →
      (t.reg x).toNat = ((s.reg x).toNat + (s.reg VF).toNat) % 256 ∧
      t.reg VF = if 255 < (s.reg x).toNat + (s.reg VF).toNat then 1 else 0) ∧
    (exec (.addReg VF VF) s = .next t → (t.reg VF).toNat = 2 * (s.reg VF).toNat % 256) ∧
    (exec (.sub VF y) s = .next t →
      t.reg VF = (if (s.reg y).toNat < (s.reg VF).toNat then 1 else 0) - s.reg y) ∧
    (exec (.sub x VF) s = .next t →
      t.reg VF = (if (s.reg VF).toNat < (s.reg x).toNat then 1 else 0) ∧
      t.reg x = s.reg x - t.reg VF) ∧
    (exec (.sub VF VF) s = .next t → t.reg VF = 0) ∧
    (exec (.subn VF y) s = .next t →
      t.reg VF = s.reg y - (if (s.reg VF).toNat < (s.reg y).toNat then 1 else 0)) ∧
    (exec (.subn x VF) s = .next t →
      t.reg VF = (if (s.reg x).toNat < (s.reg VF).toNat then 1 else 0) ∧
      t.reg x = t.reg VF - s.reg x) ∧
    (exec (.subn VF VF) s = .next t → t.reg VF = 0) ∧
    (∀ z, exec (.shr VF z) s = .next t → t.reg VF = 0) ∧
    (∀ z, exec (.shl VF z) s = .next t → (t.reg VF).toNat = 2 * ((s.reg VF).toNat / 128))

/-- R131: RND masks one fresh answer of the environment by kk. The answer is the model's free value
`Config.rndByte`, numbered by the model's own counter of draws (log 4). -/
def Obligations.RandomByteIsMasked : Prop :=
  ∀ (x : Reg) (kk : Byte) (s : State),
    decode (formXKK 0xC x kk) = .ok (.rnd x kk) ∧
    ∃ t, exec (.rnd x kk) s = .next t ∧ t.reg x = Config.rndByte s.draws &&& kk ∧
      t.reg x &&& ~~~kk = 0 ∧ t.draws = s.draws + 1 ∧ Frame [x] [.draws] s t

/-! ## Index register and memory transfers -/

/-- R141 to R143: the instructions that write I alone. -/
def Obligations.IndexInstructionsWriteIOnly : Prop :=
  ∀ (x : Reg) (nnn : BitVec 12) (s : State),
    (decode (formNNN 0xA nnn) = .ok (.ldI nnn) ∧
      ∃ t, exec (.ldI nnn) s = .next t ∧ t.i.toNat = nnn.toNat ∧ Frame [] [.i] s t) ∧
    (decode (formXKK 0xF x 0x1E) = .ok (.addI x) ∧
      ∃ t, exec (.addI x) s = .next t ∧
        t.i.toNat = (s.i.toNat + (s.reg x).toNat) % 65536 ∧ Frame [] [.i] s t) ∧
    (decode (formXKK 0xF x 0x29) = .ok (.ldF x) ∧
      ∃ t, exec (.ldF x) s = .next t ∧ t.i.toNat = (s.reg x).toNat * 5 ∧ Frame [] [.i] s t)

/-- R144: LD B,Vx stores three decimal digits at I, I + 1, I + 2, or faults and stores nothing. -/
def Obligations.BcdStoresThreeDigits : Prop :=
  ∀ (x : Reg) (s : State),
    decode (formXKK 0xF x 0x33) = .ok (.ldB x) ∧
    (s.i.toNat + 2 ≤ 0xFFF → ∃ t, exec (.ldB x) s = .next t ∧
      (t.readByte s.i).toNat = (s.reg x).toNat / 100 ∧
      (t.readByte (s.i + 1)).toNat = (s.reg x).toNat / 10 % 10 ∧
      (t.readByte (s.i + 2)).toNat = (s.reg x).toNat % 10 ∧
      (∀ a : Word, a ≠ s.i → a ≠ s.i + 1 → a ≠ s.i + 2 → t.readByte a = s.readByte a) ∧
      Frame [] [.mem] s t) ∧
    (0xFFF < s.i.toNat + 2 → exec (.ldB x) s = .next { s with
      pc := s.pc - 2
      fault := { code := .memRangeWrite, ipc := s.pc - 2, opcode := formXKK 0xF x 0x33,
                 addr := if s.i.toNat ≤ 0xFFF then 0x1000 else s.i } })

/-- R145: LD [I],Vx stores V0 to Vx at I to I + x and adds x to I, or faults and stores nothing. -/
def Obligations.BlockStoreWritesV0ToVx : Prop :=
  ∀ (x : Reg) (s : State),
    decode (formXKK 0xF x 0x55) = .ok (.ldMemVx x) ∧
    (s.i.toNat + x.val ≤ 0xFFF → ∃ t, exec (.ldMemVx x) s = .next t ∧
      (∀ k : Reg, k ≤ x → t.readByte (s.i + BitVec.ofNat 16 k.val) = s.reg k) ∧
      (∀ a : Word, (∀ k : Reg, k ≤ x → a ≠ s.i + BitVec.ofNat 16 k.val) →
        t.readByte a = s.readByte a) ∧
      t.i.toNat = s.i.toNat + x.val ∧ Frame [] [.i, .mem] s t) ∧
    (0xFFF < s.i.toNat + x.val → exec (.ldMemVx x) s = .next { s with
      pc := s.pc - 2
      fault := { code := .memRangeWrite, ipc := s.pc - 2, opcode := formXKK 0xF x 0x55,
                 addr := if s.i.toNat ≤ 0xFFF then 0x1000 else s.i } })

/-- R146: LD Vx,[I] loads V0 to Vx from I to I + x and adds x to I, or faults and loads nothing. -/
def Obligations.BlockLoadReadsV0ToVx : Prop :=
  ∀ (x : Reg) (s : State),
    decode (formXKK 0xF x 0x65) = .ok (.ldVxMem x) ∧
    (s.i.toNat + x.val ≤ 0xFFF → ∃ t, exec (.ldVxMem x) s = .next t ∧
      (∀ k : Reg, k ≤ x → t.reg k = s.readByte (s.i + BitVec.ofNat 16 k.val)) ∧
      (∀ k : Reg, x < k → t.reg k = s.reg k) ∧
      t.i.toNat = s.i.toNat + x.val ∧ Frame (List.finRange 16) [.i] s t) ∧
    (0xFFF < s.i.toNat + x.val → exec (.ldVxMem x) s = .next { s with
      pc := s.pc - 2
      fault := { code := .memRangeRead, ipc := s.pc - 2, opcode := formXKK 0xF x 0x65,
                 addr := if s.i.toNat ≤ 0xFFF then 0x1000 else s.i } })

/-- What LD [I],Vx stored, LD Vx,[I] from the same I loads back, whatever the registers hold by then
(R145, R146). -/
def Obligations.BlockLoadUndoesBlockStore : Prop :=
  ∀ (x : Reg) (s t u : State), s.i.toNat + x.val ≤ 0xFFF → exec (.ldMemVx x) s = .next t →
    u.mem = t.mem → u.params = t.params → u.i = s.i →
    ∃ w, exec (.ldVxMem x) u = .next w ∧ (∀ k : Reg, k ≤ x → w.reg k = s.reg k) ∧ w.i = t.i

/-! ## Display -/

/-- R154: CLS. -/
def Obligations.ClearTurnsEveryPixelOff : Prop :=
  ∀ s : State,
    decode 0x00E0 = .ok .cls ∧
    ∃ t, exec .cls s = .next t ∧ (∀ X Y : Nat, t.getPixel X Y = 0) ∧ Frame [] [.fb] s t

/-- R155: DRW toggles exactly the pixels its sprite covers, VF is 1 exactly when one of them was on,
and nothing else changes; a sprite that leaves MEM faults and draws nothing. With x = F or y = F the
coordinate is VF before the flag write by the spec's decision D9 (log 16). -/
def Obligations.DrawTogglesTheCoveredPixels : Prop :=
  ∀ (x y : Reg) (n : Nat) (s : State), n ≤ 15 →
    decode (formXYN 0xD x y (BitVec.ofNat 4 n)) = .ok (.drw x y n) ∧
    (n = 0 ∨ s.i.toNat + n ≤ 0x1000 → ∃ t, exec (.drw x y n) s = .next t ∧
      (∀ X < 64, ∀ Y < 32,
        (pixel t.fb X Y ≠ pixel s.fb X Y ↔ SpriteCovers s x y n X Y)) ∧
      ((∃ X < 64, ∃ Y < 32, SpriteCovers s x y n X Y ∧ pixel s.fb X Y = true) →
        t.reg VF = 1) ∧
      ((¬ ∃ X < 64, ∃ Y < 32, SpriteCovers s x y n X Y ∧ pixel s.fb X Y = true) →
        t.reg VF = 0) ∧
      Frame [VF] [.fb] s t) ∧
    (n ≠ 0 → 0x1000 < s.i.toNat + n → exec (.drw x y n) s = .next { s with
      pc := s.pc - 2
      fault := { code := .memRangeRead, ipc := s.pc - 2,
                 opcode := formXYN 0xD x y (BitVec.ofNat 4 n),
                 addr := if s.i.toNat ≤ 0xFFF then 0x1000 else s.i } })

/-- R157, which the spec derives from R150, R151 and R155: a second DRW with the same x, y, n, I,
register values and sprite bytes, on the FB the first left, restores FB, and sets VF exactly when the
first turned a pixel on. -/
def Obligations.DrawingTwiceRestoresTheScreen : Prop :=
  ∀ (x y : Reg) (n : Nat) (s t s' : State), n ≤ 15 → (n = 0 ∨ s.i.toNat + n ≤ 0x1000) →
    exec (.drw x y n) s = .next t →
    s'.fb = t.fb → s'.i = s.i → s'.reg x = s.reg x → s'.reg y = s.reg y →
    (∀ k < n, s'.readByte (s.i + BitVec.ofNat 16 k) = s.readByte (s.i + BitVec.ofNat 16 k)) →
    ∃ u, exec (.drw x y n) s' = .next u ∧ u.fb = s.fb ∧
      (u.reg VF = 1 ↔ ∃ X < 64, ∃ Y < 32, pixel s.fb X Y = false ∧ pixel t.fb X Y = true)

/-! ## Keys and timers -/

/-- R172, R173 with R170: SKP and SKNP ask for the key with the full register value; a value of 16
or more is never a held key, by the spec's decision D11 (log 16). -/
def Obligations.KeySkipsTestTheHeldKey : Prop :=
  ∀ (x : Reg) (s : State),
    (decode (formXKK 0xE x 0x9E) = .ok (.skp x) ∧
      ∃ t, exec (.skp x) s = .next t ∧
        t.pc = (if (s.reg x).toNat < 16 ∧ s.keys.getLsbD (s.reg x).toNat = true
                then s.pc + 2 else s.pc) ∧ Frame [] [.pc] s t) ∧
    (decode (formXKK 0xE x 0xA1) = .ok (.sknp x) ∧
      ∃ t, exec (.sknp x) s = .next t ∧
        t.pc = (if (s.reg x).toNat < 16 ∧ s.keys.getLsbD (s.reg x).toNat = true
                then s.pc else s.pc + 2) ∧ Frame [] [.pc] s t)

/-- R174: LD Vx,K goes back to its own address while no key is held, changing nothing else, and else
writes the code of some held key. Which one is a free choice of the model, and its counter of draws
counts it (logs 4, 5). The test is on keys held now by the spec's decision D10 (log 16). -/
def Obligations.KeyWaitPollsForAHeldKey : Prop :=
  ∀ (x : Reg) (s : State),
    decode (formXKK 0xF x 0x0A) = .ok (.ldVxK x) ∧
    (s.keys = 0 → exec (.ldVxK x) s = .next (s.setPc (s.pc - 2))) ∧
    (s.keys ≠ 0 → ∃ t, exec (.ldVxK x) s = .next t ∧
      (∃ k : Key, s.keys.getLsbD k.val = true ∧ (t.reg x).toNat = k.val) ∧
      t.draws = s.draws + 1 ∧ Frame [x] [.draws] s t)

/-- R175 to R177: the timer loads. -/
def Obligations.TimerLoadsCopyOneByte : Prop :=
  ∀ (x : Reg) (s : State),
    (decode (formXKK 0xF x 0x07) = .ok (.ldVxDt x) ∧
      ∃ t, exec (.ldVxDt x) s = .next t ∧ t.reg x = s.dt ∧ Frame [x] [] s t) ∧
    (decode (formXKK 0xF x 0x15) = .ok (.ldDtVx x) ∧
      ∃ t, exec (.ldDtVx x) s = .next t ∧ t.dt = s.reg x ∧ Frame [] [.dt] s t) ∧
    (decode (formXKK 0xF x 0x18) = .ok (.ldStVx x) ∧
      ∃ t, exec (.ldStVx x) s = .next t ∧ t.st = s.reg x ∧
        t.sound = decide (s.reg x ≠ 0) ∧ Frame [] [.st] s t)

/-- R171: press and release set and clear one bit of KEYS and change nothing else; no other
transaction changes KEYS. -/
def Obligations.KeyEventsChangeOneBit : Prop :=
  (∀ (k : Key) (s : State),
    ∃ t u, transact (.press k) s = .next t ∧ transact (.release k) s = .next u ∧
      t = { s with keys := t.keys } ∧ u = { s with keys := u.keys } ∧
      ∀ j : Key, t.keys.getLsbD j.val = (decide (j = k) || s.keys.getLsbD j.val) ∧
        u.keys.getLsbD j.val = (decide (j ≠ k) && s.keys.getLsbD j.val)) ∧
  (∀ (a : Transaction) (s t : State), transact a s = .next t →
    (∀ k, a ≠ .press k) → (∀ k, a ≠ .release k) → t.keys = s.keys)

/-! ## Reset, load and boot -/

/-- R35, R241: the state the model starts from, for all parameters. KEYS is left out: its value there
is the model's choice (log 6). -/
def Obligations.PowerOnHoldsTheResetValues : Prop :=
  State.reset = State.powerOn defaultParams ∧ defaultParams.valid = true ∧
  ∀ (p : Params) (s : State), s = State.powerOn p →
    (∀ r : Reg, s.reg r = 0) ∧ s.i = 0 ∧ s.pc = p.entry ∧ s.sp = 0 ∧
    (∀ j : Fin 16, s.stack[j] = 0) ∧ s.dt = 0 ∧ s.st = 0 ∧ (∀ X Y : Nat, s.getPixel X Y = 0) ∧
    (∀ a : Fin 80, s.readByte (BitVec.ofNat 16 a.val) = p.font[a]) ∧
    s.fault = { code := .none, ipc := 0, opcode := 0, addr := 0 } ∧ s.prescale = 0 ∧
    s.params = p

/-- R240: what RESET leaves, and the three things it does not change; with an image that LOAD takes,
it is RESET without one and then LOAD. -/
def Obligations.ResetRestoresTheEngine : Prop :=
  ∀ s : State, s.params.valid = true →
    ∃ t, transact (.reset none) s = .next t ∧
      (∀ r : Reg, t.reg r = 0) ∧ t.i = 0 ∧ t.pc = s.params.entry ∧ t.sp = 0 ∧
      (∀ j : Fin 16, t.stack[j] = 0) ∧ t.dt = 0 ∧ t.st = 0 ∧
      (∀ X Y : Nat, t.getPixel X Y = 0) ∧
      t.fault = { code := .none, ipc := 0, opcode := 0, addr := 0 } ∧ t.prescale = 0 ∧
      (∀ a : Fin 80, t.readByte (BitVec.ofNat 16 a.val) = s.params.font[a]) ∧
      (∀ a : Word, 0x50 ≤ a.toNat → t.readByte a = s.readByte a) ∧
      t.keys = s.keys ∧ t.params = s.params ∧
      (∀ image, image ≠ [] → s.params.entry.toNat + image.length ≤ 0x1000 →
        ∃ u, transact (.reset (some image)) s = .next u ∧ transact (.load image) t = .next u)

/-- R242: LOAD copies the image to ENTRY and changes nothing else, or is refused when the image is
empty or does not fit. -/
def Obligations.LoadCopiesTheImageOrIsRefused : Prop :=
  ∀ (image : List Byte) (s : State), s.params.valid = true →
    (image ≠ [] → s.params.entry.toNat + image.length ≤ 0x1000 →
      ∃ t, transact (.load image) s = .next t ∧
        (∀ j : Fin image.length,
          t.readByte (s.params.entry + BitVec.ofNat 16 j.val) = image[j]) ∧
        (∀ a : Word, (∀ j < image.length, a ≠ s.params.entry + BitVec.ofNat 16 j) →
          t.readByte a = s.readByte a) ∧
        Frame [] [.mem] s t) ∧
    (image = [] → transact (.load image) s = .refused .loadEmpty) ∧
    (0x1000 < s.params.entry.toNat + image.length →
      transact (.load image) s = .refused .loadTooLarge)

/-- Boot (R241, R243): a valid machine with an image of at least one opcode that fits starts running
at ENTRY, and its first fetch reads the image's first two bytes. -/
def Obligations.BootRunsTheImageFromEntry : Prop :=
  ∀ (p : Params) (hi lo : Byte) (rest : List Byte), p.valid = true →
    p.entry.toNat + (rest.length + 2) ≤ 0x1000 →
    ∃ t, boot p (hi :: lo :: rest) = .next t ∧ t.halted = false ∧ t.pc = p.entry ∧
      t.fetch = .ok (opcodeOfBytes hi lo) ∧
      ∀ a : Fin 80, t.readByte (BitVec.ofNat 16 a.val) = p.font[a]
end

