-- ==== Sys2Proof/Laws/Decode.lean ====
section
/-! SUPPORT. What the field extractors read from the three encoding forms, and the opcode's bytes. -/

namespace Sys2Proof

@[simp] theorem regBits_toFin (x : Reg) : (regBits x).toFin = x := rfl

@[simp] theorem regBits_ofToFin (b : BitVec 4) : regBits b.toFin = b := rfl

@[simp] theorem classOf_formNNN (c : BitVec 4) (nnn : BitVec 12) : classOf (formNNN c nnn) = c :=
  BitVec.extractLsb'_append_eq_left

@[simp] theorem fieldNNN_formNNN (c : BitVec 4) (nnn : BitVec 12) :
    fieldNNN (formNNN c nnn) = nnn :=
  BitVec.extractLsb'_append_eq_right

/-- A form with x as class nibble, x and the low byte. -/
theorem formXKK_assoc (c : BitVec 4) (x : Reg) (kk : Byte) :
    formXKK c x kk = (c ++ (regBits x ++ kk : BitVec 12) : BitVec 16) := by
  exact BitVec.append_assoc

/-- The low byte of form XYN is y and n. -/
theorem formXYN_eq_formXKK (c : BitVec 4) (x y : Reg) (n : BitVec 4) :
    formXYN c x y n = formXKK c x (regBits y ++ n) := by
  exact BitVec.append_assoc

@[simp] theorem classOf_formXKK (c : BitVec 4) (x : Reg) (kk : Byte) :
    classOf (formXKK c x kk) = c := by
  rw [formXKK_assoc]; exact BitVec.extractLsb'_append_eq_left

@[simp] theorem fieldKK_formXKK (c : BitVec 4) (x : Reg) (kk : Byte) :
    fieldKK (formXKK c x kk) = kk :=
  BitVec.extractLsb'_append_eq_right

@[simp] theorem fieldX_formXKK (c : BitVec 4) (x : Reg) (kk : Byte) :
    fieldX (formXKK c x kk) = x := by
  have h : (formXKK c x kk).extractLsb' 8 4 = regBits x := by
    apply BitVec.eq_of_getLsbD_eq
    intro i hi
    simp only [formXKK, BitVec.getLsbD_extractLsb', BitVec.getLsbD_append, hi, decide_true,
      Bool.true_and]
    have : ¬ (8 + i < 8) := by omega
    simp [this]
    omega
  simp [fieldX, h]

@[simp] theorem classOf_formXYN (c : BitVec 4) (x y : Reg) (n : BitVec 4) :
    classOf (formXYN c x y n) = c := by
  rw [formXYN_eq_formXKK, classOf_formXKK]

@[simp] theorem fieldX_formXYN (c : BitVec 4) (x y : Reg) (n : BitVec 4) :
    fieldX (formXYN c x y n) = x := by
  rw [formXYN_eq_formXKK, fieldX_formXKK]

@[simp] theorem fieldN_formXYN (c : BitVec 4) (x y : Reg) (n : BitVec 4) :
    fieldN (formXYN c x y n) = n :=
  BitVec.extractLsb'_append_eq_right

@[simp] theorem fieldY_formXYN (c : BitVec 4) (x y : Reg) (n : BitVec 4) :
    fieldY (formXYN c x y n) = y := by
  have h : (formXYN c x y n).extractLsb' 4 4 = regBits y := by
    apply BitVec.eq_of_getLsbD_eq
    intro i hi
    simp only [formXYN, BitVec.getLsbD_extractLsb', BitVec.getLsbD_append, hi, decide_true,
      Bool.true_and]
    have : ¬ (4 + i < 4) := by omega
    simp [this]
    omega
  simp [fieldY, h]

/-- Two adjacent slices of a word, joined, are the slice over both. -/
theorem join_slices {k : Nat} (op : BitVec k) (lo n m : Nat) :
    op.extractLsb' (lo + n) m ++ op.extractLsb' lo n = op.extractLsb' lo (m + n) :=
  BitVec.extractLsb'_append_extractLsb'_eq_extractLsb' rfl

/-- Every word is its fields in form NNN. -/
theorem formNNN_fields (op : Word) : formNNN (classOf op) (fieldNNN op) = op :=
  (join_slices op 0 12 4).trans BitVec.extractLsb'_eq_self

/-- Every word is its fields in form XKK. -/
theorem formXKK_fields (op : Word) : formXKK (classOf op) (fieldX op) (fieldKK op) = op := by
  have h : classOf op ++ regBits (fieldX op) = op.extractLsb' 8 8 := join_slices op 8 4 4
  rw [formXKK, h]
  exact (join_slices op 0 8 8).trans BitVec.extractLsb'_eq_self

/-- Every word is its fields in form XYN. -/
theorem formXYN_fields (op : Word) :
    formXYN (classOf op) (fieldX op) (fieldY op) (fieldN op) = op := by
  have h : (regBits (fieldY op) ++ fieldN op : BitVec 8) = fieldKK op := join_slices op 0 4 4
  rw [formXYN_eq_formXKK, h, formXKK_fields]

@[simp] theorem opcodeOfBytes_bytesOfOpcode (op : Word) :
    opcodeOfBytes (bytesOfOpcode op).1 (bytesOfOpcode op).2 = op :=
  (join_slices op 0 8 8).trans BitVec.extractLsb'_eq_self

end Sys2Proof
end

