-- ==== Sys2Proof/Laws/State.lean ====
section
/-! SUPPORT. One lemma per field per update of State, tagged for simp, so that no later proof unfolds
a record update. The views `reg` and `readByte` have theirs too. -/

namespace Sys2Proof.Machine

variable (s : State)

/-! ### setReg -/

@[simp] theorem State.setReg_v (x : Reg) (b : Byte) : (s.setReg x b).v = s.v.set x b := rfl
@[simp] theorem State.setReg_i (x : Reg) (b : Byte) : (s.setReg x b).i = s.i := rfl
@[simp] theorem State.setReg_pc (x : Reg) (b : Byte) : (s.setReg x b).pc = s.pc := rfl
@[simp] theorem State.setReg_sp (x : Reg) (b : Byte) : (s.setReg x b).sp = s.sp := rfl
@[simp] theorem State.setReg_stack (x : Reg) (b : Byte) : (s.setReg x b).stack = s.stack := rfl
@[simp] theorem State.setReg_dt (x : Reg) (b : Byte) : (s.setReg x b).dt = s.dt := rfl
@[simp] theorem State.setReg_st (x : Reg) (b : Byte) : (s.setReg x b).st = s.st := rfl
@[simp] theorem State.setReg_mem (x : Reg) (b : Byte) : (s.setReg x b).mem = s.mem := rfl
@[simp] theorem State.setReg_fb (x : Reg) (b : Byte) : (s.setReg x b).fb = s.fb := rfl
@[simp] theorem State.setReg_keys (x : Reg) (b : Byte) : (s.setReg x b).keys = s.keys := rfl
@[simp] theorem State.setReg_fault (x : Reg) (b : Byte) : (s.setReg x b).fault = s.fault := rfl
@[simp] theorem State.setReg_prescale (x : Reg) (b : Byte) :
    (s.setReg x b).prescale = s.prescale := rfl
@[simp] theorem State.setReg_params (x : Reg) (b : Byte) : (s.setReg x b).params = s.params := rfl
@[simp] theorem State.setReg_draws (x : Reg) (b : Byte) : (s.setReg x b).draws = s.draws := rfl
@[simp] theorem State.setReg_readByte (x : Reg) (b : Byte) (w : Word) :
    (s.setReg x b).readByte w = s.readByte w := rfl
@[simp] theorem State.setReg_halted (x : Reg) (b : Byte) : (s.setReg x b).halted = s.halted := rfl

/-! ### setI -/

@[simp] theorem State.setI_v (a : Word) : (s.setI a).v = s.v := rfl
@[simp] theorem State.setI_i (a : Word) : (s.setI a).i = a := rfl
@[simp] theorem State.setI_pc (a : Word) : (s.setI a).pc = s.pc := rfl
@[simp] theorem State.setI_sp (a : Word) : (s.setI a).sp = s.sp := rfl
@[simp] theorem State.setI_stack (a : Word) : (s.setI a).stack = s.stack := rfl
@[simp] theorem State.setI_dt (a : Word) : (s.setI a).dt = s.dt := rfl
@[simp] theorem State.setI_st (a : Word) : (s.setI a).st = s.st := rfl
@[simp] theorem State.setI_mem (a : Word) : (s.setI a).mem = s.mem := rfl
@[simp] theorem State.setI_fb (a : Word) : (s.setI a).fb = s.fb := rfl
@[simp] theorem State.setI_keys (a : Word) : (s.setI a).keys = s.keys := rfl
@[simp] theorem State.setI_fault (a : Word) : (s.setI a).fault = s.fault := rfl
@[simp] theorem State.setI_prescale (a : Word) : (s.setI a).prescale = s.prescale := rfl
@[simp] theorem State.setI_params (a : Word) : (s.setI a).params = s.params := rfl
@[simp] theorem State.setI_draws (a : Word) : (s.setI a).draws = s.draws := rfl
@[simp] theorem State.setI_reg (a : Word) (r : Reg) : (s.setI a).reg r = s.reg r := rfl
@[simp] theorem State.setI_readByte (a : Word) (w : Word) :
    (s.setI a).readByte w = s.readByte w := rfl
@[simp] theorem State.setI_halted (a : Word) : (s.setI a).halted = s.halted := rfl

/-! ### setPc -/

@[simp] theorem State.setPc_v (a : Word) : (s.setPc a).v = s.v := rfl
@[simp] theorem State.setPc_i (a : Word) : (s.setPc a).i = s.i := rfl
@[simp] theorem State.setPc_pc (a : Word) : (s.setPc a).pc = a := rfl
@[simp] theorem State.setPc_sp (a : Word) : (s.setPc a).sp = s.sp := rfl
@[simp] theorem State.setPc_stack (a : Word) : (s.setPc a).stack = s.stack := rfl
@[simp] theorem State.setPc_dt (a : Word) : (s.setPc a).dt = s.dt := rfl
@[simp] theorem State.setPc_st (a : Word) : (s.setPc a).st = s.st := rfl
@[simp] theorem State.setPc_mem (a : Word) : (s.setPc a).mem = s.mem := rfl
@[simp] theorem State.setPc_fb (a : Word) : (s.setPc a).fb = s.fb := rfl
@[simp] theorem State.setPc_keys (a : Word) : (s.setPc a).keys = s.keys := rfl
@[simp] theorem State.setPc_fault (a : Word) : (s.setPc a).fault = s.fault := rfl
@[simp] theorem State.setPc_prescale (a : Word) : (s.setPc a).prescale = s.prescale := rfl
@[simp] theorem State.setPc_params (a : Word) : (s.setPc a).params = s.params := rfl
@[simp] theorem State.setPc_draws (a : Word) : (s.setPc a).draws = s.draws := rfl
@[simp] theorem State.setPc_reg (a : Word) (r : Reg) : (s.setPc a).reg r = s.reg r := rfl
@[simp] theorem State.setPc_readByte (a : Word) (w : Word) :
    (s.setPc a).readByte w = s.readByte w := rfl
@[simp] theorem State.setPc_halted (a : Word) : (s.setPc a).halted = s.halted := rfl

/-! ### setDt -/

@[simp] theorem State.setDt_v (b : Byte) : (s.setDt b).v = s.v := rfl
@[simp] theorem State.setDt_i (b : Byte) : (s.setDt b).i = s.i := rfl
@[simp] theorem State.setDt_pc (b : Byte) : (s.setDt b).pc = s.pc := rfl
@[simp] theorem State.setDt_sp (b : Byte) : (s.setDt b).sp = s.sp := rfl
@[simp] theorem State.setDt_stack (b : Byte) : (s.setDt b).stack = s.stack := rfl
@[simp] theorem State.setDt_dt (b : Byte) : (s.setDt b).dt = b := rfl
@[simp] theorem State.setDt_st (b : Byte) : (s.setDt b).st = s.st := rfl
@[simp] theorem State.setDt_mem (b : Byte) : (s.setDt b).mem = s.mem := rfl
@[simp] theorem State.setDt_fb (b : Byte) : (s.setDt b).fb = s.fb := rfl
@[simp] theorem State.setDt_keys (b : Byte) : (s.setDt b).keys = s.keys := rfl
@[simp] theorem State.setDt_fault (b : Byte) : (s.setDt b).fault = s.fault := rfl
@[simp] theorem State.setDt_prescale (b : Byte) : (s.setDt b).prescale = s.prescale := rfl
@[simp] theorem State.setDt_params (b : Byte) : (s.setDt b).params = s.params := rfl
@[simp] theorem State.setDt_draws (b : Byte) : (s.setDt b).draws = s.draws := rfl
@[simp] theorem State.setDt_reg (b : Byte) (r : Reg) : (s.setDt b).reg r = s.reg r := rfl
@[simp] theorem State.setDt_readByte (b : Byte) (w : Word) :
    (s.setDt b).readByte w = s.readByte w := rfl
@[simp] theorem State.setDt_halted (b : Byte) : (s.setDt b).halted = s.halted := rfl

/-! ### setSt -/

@[simp] theorem State.setSt_v (b : Byte) : (s.setSt b).v = s.v := rfl
@[simp] theorem State.setSt_i (b : Byte) : (s.setSt b).i = s.i := rfl
@[simp] theorem State.setSt_pc (b : Byte) : (s.setSt b).pc = s.pc := rfl
@[simp] theorem State.setSt_sp (b : Byte) : (s.setSt b).sp = s.sp := rfl
@[simp] theorem State.setSt_stack (b : Byte) : (s.setSt b).stack = s.stack := rfl
@[simp] theorem State.setSt_dt (b : Byte) : (s.setSt b).dt = s.dt := rfl
@[simp] theorem State.setSt_st (b : Byte) : (s.setSt b).st = b := rfl
@[simp] theorem State.setSt_mem (b : Byte) : (s.setSt b).mem = s.mem := rfl
@[simp] theorem State.setSt_fb (b : Byte) : (s.setSt b).fb = s.fb := rfl
@[simp] theorem State.setSt_keys (b : Byte) : (s.setSt b).keys = s.keys := rfl
@[simp] theorem State.setSt_fault (b : Byte) : (s.setSt b).fault = s.fault := rfl
@[simp] theorem State.setSt_prescale (b : Byte) : (s.setSt b).prescale = s.prescale := rfl
@[simp] theorem State.setSt_params (b : Byte) : (s.setSt b).params = s.params := rfl
@[simp] theorem State.setSt_draws (b : Byte) : (s.setSt b).draws = s.draws := rfl
@[simp] theorem State.setSt_reg (b : Byte) (r : Reg) : (s.setSt b).reg r = s.reg r := rfl
@[simp] theorem State.setSt_readByte (b : Byte) (w : Word) :
    (s.setSt b).readByte w = s.readByte w := rfl
@[simp] theorem State.setSt_halted (b : Byte) : (s.setSt b).halted = s.halted := rfl

/-! ### setFb -/

@[simp] theorem State.setFb_v (fb : Vector PixelRow 32) : (s.setFb fb).v = s.v := rfl
@[simp] theorem State.setFb_i (fb : Vector PixelRow 32) : (s.setFb fb).i = s.i := rfl
@[simp] theorem State.setFb_pc (fb : Vector PixelRow 32) : (s.setFb fb).pc = s.pc := rfl
@[simp] theorem State.setFb_sp (fb : Vector PixelRow 32) : (s.setFb fb).sp = s.sp := rfl
@[simp] theorem State.setFb_stack (fb : Vector PixelRow 32) : (s.setFb fb).stack = s.stack := rfl
@[simp] theorem State.setFb_dt (fb : Vector PixelRow 32) : (s.setFb fb).dt = s.dt := rfl
@[simp] theorem State.setFb_st (fb : Vector PixelRow 32) : (s.setFb fb).st = s.st := rfl
@[simp] theorem State.setFb_mem (fb : Vector PixelRow 32) : (s.setFb fb).mem = s.mem := rfl
@[simp] theorem State.setFb_fb (fb : Vector PixelRow 32) : (s.setFb fb).fb = fb := rfl
@[simp] theorem State.setFb_keys (fb : Vector PixelRow 32) : (s.setFb fb).keys = s.keys := rfl
@[simp] theorem State.setFb_fault (fb : Vector PixelRow 32) : (s.setFb fb).fault = s.fault := rfl
@[simp] theorem State.setFb_prescale (fb : Vector PixelRow 32) :
    (s.setFb fb).prescale = s.prescale := rfl
@[simp] theorem State.setFb_params (fb : Vector PixelRow 32) :
    (s.setFb fb).params = s.params := rfl
@[simp] theorem State.setFb_draws (fb : Vector PixelRow 32) : (s.setFb fb).draws = s.draws := rfl
@[simp] theorem State.setFb_reg (fb : Vector PixelRow 32) (r : Reg) :
    (s.setFb fb).reg r = s.reg r := rfl
@[simp] theorem State.setFb_readByte (fb : Vector PixelRow 32) (w : Word) :
    (s.setFb fb).readByte w = s.readByte w := rfl
@[simp] theorem State.setFb_halted (fb : Vector PixelRow 32) :
    (s.setFb fb).halted = s.halted := rfl

/-! ### push -/

@[simp] theorem State.push_v (a : Word) : (s.push a).v = s.v := rfl
@[simp] theorem State.push_i (a : Word) : (s.push a).i = s.i := rfl
@[simp] theorem State.push_pc (a : Word) : (s.push a).pc = s.pc := rfl
@[simp] theorem State.push_sp (a : Word) : (s.push a).sp = s.sp + 1 := rfl
@[simp] theorem State.push_stack (a : Word) :
    (s.push a).stack = s.stack.set (stackSlot (s.sp + 1)) a := rfl
@[simp] theorem State.push_dt (a : Word) : (s.push a).dt = s.dt := rfl
@[simp] theorem State.push_st (a : Word) : (s.push a).st = s.st := rfl
@[simp] theorem State.push_mem (a : Word) : (s.push a).mem = s.mem := rfl
@[simp] theorem State.push_fb (a : Word) : (s.push a).fb = s.fb := rfl
@[simp] theorem State.push_keys (a : Word) : (s.push a).keys = s.keys := rfl
@[simp] theorem State.push_fault (a : Word) : (s.push a).fault = s.fault := rfl
@[simp] theorem State.push_prescale (a : Word) : (s.push a).prescale = s.prescale := rfl
@[simp] theorem State.push_params (a : Word) : (s.push a).params = s.params := rfl
@[simp] theorem State.push_draws (a : Word) : (s.push a).draws = s.draws := rfl
@[simp] theorem State.push_reg (a : Word) (r : Reg) : (s.push a).reg r = s.reg r := rfl
@[simp] theorem State.push_readByte (a : Word) (w : Word) :
    (s.push a).readByte w = s.readByte w := rfl
@[simp] theorem State.push_halted (a : Word) : (s.push a).halted = s.halted := rfl

/-! ### dropTop -/

@[simp] theorem State.dropTop_v : (s.dropTop).v = s.v := rfl
@[simp] theorem State.dropTop_i : (s.dropTop).i = s.i := rfl
@[simp] theorem State.dropTop_pc : (s.dropTop).pc = s.pc := rfl
@[simp] theorem State.dropTop_sp : (s.dropTop).sp = s.sp - 1 := rfl
@[simp] theorem State.dropTop_stack : (s.dropTop).stack = s.stack := rfl
@[simp] theorem State.dropTop_dt : (s.dropTop).dt = s.dt := rfl
@[simp] theorem State.dropTop_st : (s.dropTop).st = s.st := rfl
@[simp] theorem State.dropTop_mem : (s.dropTop).mem = s.mem := rfl
@[simp] theorem State.dropTop_fb : (s.dropTop).fb = s.fb := rfl
@[simp] theorem State.dropTop_keys : (s.dropTop).keys = s.keys := rfl
@[simp] theorem State.dropTop_fault : (s.dropTop).fault = s.fault := rfl
@[simp] theorem State.dropTop_prescale : (s.dropTop).prescale = s.prescale := rfl
@[simp] theorem State.dropTop_params : (s.dropTop).params = s.params := rfl
@[simp] theorem State.dropTop_draws : (s.dropTop).draws = s.draws := rfl
@[simp] theorem State.dropTop_reg (r : Reg) : (s.dropTop).reg r = s.reg r := rfl
@[simp] theorem State.dropTop_readByte (w : Word) : (s.dropTop).readByte w = s.readByte w := rfl
@[simp] theorem State.dropTop_halted : (s.dropTop).halted = s.halted := rfl

/-! ### writeByte -/

@[simp] theorem State.writeByte_v (a : Word) (b : Byte) : (s.writeByte a b).v = s.v := rfl
@[simp] theorem State.writeByte_i (a : Word) (b : Byte) : (s.writeByte a b).i = s.i := rfl
@[simp] theorem State.writeByte_pc (a : Word) (b : Byte) : (s.writeByte a b).pc = s.pc := rfl
@[simp] theorem State.writeByte_sp (a : Word) (b : Byte) : (s.writeByte a b).sp = s.sp := rfl
@[simp] theorem State.writeByte_stack (a : Word) (b : Byte) :
    (s.writeByte a b).stack = s.stack := rfl
@[simp] theorem State.writeByte_dt (a : Word) (b : Byte) : (s.writeByte a b).dt = s.dt := rfl
@[simp] theorem State.writeByte_st (a : Word) (b : Byte) : (s.writeByte a b).st = s.st := rfl
@[simp] theorem State.writeByte_mem (a : Word) (b : Byte) :
    (s.writeByte a b).mem = Memory.write s.params.font s.mem a.toNat b := rfl
@[simp] theorem State.writeByte_fb (a : Word) (b : Byte) : (s.writeByte a b).fb = s.fb := rfl
@[simp] theorem State.writeByte_keys (a : Word) (b : Byte) :
    (s.writeByte a b).keys = s.keys := rfl
@[simp] theorem State.writeByte_fault (a : Word) (b : Byte) :
    (s.writeByte a b).fault = s.fault := rfl
@[simp] theorem State.writeByte_prescale (a : Word) (b : Byte) :
    (s.writeByte a b).prescale = s.prescale := rfl
@[simp] theorem State.writeByte_params (a : Word) (b : Byte) :
    (s.writeByte a b).params = s.params := rfl
@[simp] theorem State.writeByte_draws (a : Word) (b : Byte) :
    (s.writeByte a b).draws = s.draws := rfl
@[simp] theorem State.writeByte_reg (a : Word) (b : Byte) (r : Reg) :
    (s.writeByte a b).reg r = s.reg r := rfl
@[simp] theorem State.writeByte_halted (a : Word) (b : Byte) :
    (s.writeByte a b).halted = s.halted := rfl

/-! ### countDraw -/

@[simp] theorem State.countDraw_v : (s.countDraw).v = s.v := rfl
@[simp] theorem State.countDraw_i : (s.countDraw).i = s.i := rfl
@[simp] theorem State.countDraw_pc : (s.countDraw).pc = s.pc := rfl
@[simp] theorem State.countDraw_sp : (s.countDraw).sp = s.sp := rfl
@[simp] theorem State.countDraw_stack : (s.countDraw).stack = s.stack := rfl
@[simp] theorem State.countDraw_dt : (s.countDraw).dt = s.dt := rfl
@[simp] theorem State.countDraw_st : (s.countDraw).st = s.st := rfl
@[simp] theorem State.countDraw_mem : (s.countDraw).mem = s.mem := rfl
@[simp] theorem State.countDraw_fb : (s.countDraw).fb = s.fb := rfl
@[simp] theorem State.countDraw_keys : (s.countDraw).keys = s.keys := rfl
@[simp] theorem State.countDraw_fault : (s.countDraw).fault = s.fault := rfl
@[simp] theorem State.countDraw_prescale : (s.countDraw).prescale = s.prescale := rfl
@[simp] theorem State.countDraw_params : (s.countDraw).params = s.params := rfl
@[simp] theorem State.countDraw_draws : (s.countDraw).draws = s.draws + 1 := rfl
@[simp] theorem State.countDraw_reg (r : Reg) : (s.countDraw).reg r = s.reg r := rfl
@[simp] theorem State.countDraw_readByte (w : Word) :
    (s.countDraw).readByte w = s.readByte w := rfl
@[simp] theorem State.countDraw_halted : (s.countDraw).halted = s.halted := rfl

/-! ### advancePc -/

@[simp] theorem State.advancePc_v : (s.advancePc).v = s.v := rfl
@[simp] theorem State.advancePc_i : (s.advancePc).i = s.i := rfl
@[simp] theorem State.advancePc_pc : (s.advancePc).pc = s.pc + 2 := rfl
@[simp] theorem State.advancePc_sp : (s.advancePc).sp = s.sp := rfl
@[simp] theorem State.advancePc_stack : (s.advancePc).stack = s.stack := rfl
@[simp] theorem State.advancePc_dt : (s.advancePc).dt = s.dt := rfl
@[simp] theorem State.advancePc_st : (s.advancePc).st = s.st := rfl
@[simp] theorem State.advancePc_mem : (s.advancePc).mem = s.mem := rfl
@[simp] theorem State.advancePc_fb : (s.advancePc).fb = s.fb := rfl
@[simp] theorem State.advancePc_keys : (s.advancePc).keys = s.keys := rfl
@[simp] theorem State.advancePc_fault : (s.advancePc).fault = s.fault := rfl
@[simp] theorem State.advancePc_prescale : (s.advancePc).prescale = s.prescale := rfl
@[simp] theorem State.advancePc_params : (s.advancePc).params = s.params := rfl
@[simp] theorem State.advancePc_draws : (s.advancePc).draws = s.draws := rfl
@[simp] theorem State.advancePc_reg (r : Reg) : (s.advancePc).reg r = s.reg r := rfl
@[simp] theorem State.advancePc_readByte (w : Word) :
    (s.advancePc).readByte w = s.readByte w := rfl
@[simp] theorem State.advancePc_halted : (s.advancePc).halted = s.halted := rfl

/-! ### recordFault -/

@[simp] theorem State.recordFault_v (c : FaultCode) (A op a : Word) :
    (s.recordFault c A op a).v = s.v := rfl
@[simp] theorem State.recordFault_i (c : FaultCode) (A op a : Word) :
    (s.recordFault c A op a).i = s.i := rfl
@[simp] theorem State.recordFault_pc (c : FaultCode) (A op a : Word) :
    (s.recordFault c A op a).pc = A := rfl
@[simp] theorem State.recordFault_sp (c : FaultCode) (A op a : Word) :
    (s.recordFault c A op a).sp = s.sp := rfl
@[simp] theorem State.recordFault_stack (c : FaultCode) (A op a : Word) :
    (s.recordFault c A op a).stack = s.stack := rfl
@[simp] theorem State.recordFault_dt (c : FaultCode) (A op a : Word) :
    (s.recordFault c A op a).dt = s.dt := rfl
@[simp] theorem State.recordFault_st (c : FaultCode) (A op a : Word) :
    (s.recordFault c A op a).st = s.st := rfl
@[simp] theorem State.recordFault_mem (c : FaultCode) (A op a : Word) :
    (s.recordFault c A op a).mem = s.mem := rfl
@[simp] theorem State.recordFault_fb (c : FaultCode) (A op a : Word) :
    (s.recordFault c A op a).fb = s.fb := rfl
@[simp] theorem State.recordFault_keys (c : FaultCode) (A op a : Word) :
    (s.recordFault c A op a).keys = s.keys := rfl
@[simp] theorem State.recordFault_fault (c : FaultCode) (A op a : Word) :
    (s.recordFault c A op a).fault = ⟨c, A, op, a⟩ := rfl
@[simp] theorem State.recordFault_prescale (c : FaultCode) (A op a : Word) :
    (s.recordFault c A op a).prescale = s.prescale := rfl
@[simp] theorem State.recordFault_params (c : FaultCode) (A op a : Word) :
    (s.recordFault c A op a).params = s.params := rfl
@[simp] theorem State.recordFault_draws (c : FaultCode) (A op a : Word) :
    (s.recordFault c A op a).draws = s.draws := rfl
@[simp] theorem State.recordFault_reg (c : FaultCode) (A op a : Word) (r : Reg) :
    (s.recordFault c A op a).reg r = s.reg r := rfl
@[simp] theorem State.recordFault_readByte (c : FaultCode) (A op a : Word) (w : Word) :
    (s.recordFault c A op a).readByte w = s.readByte w := rfl

/-! ### raise -/

@[simp] theorem State.raise_v (c : FaultCode) (op a : Word) : (s.raise c op a).v = s.v := rfl
@[simp] theorem State.raise_i (c : FaultCode) (op a : Word) : (s.raise c op a).i = s.i := rfl
@[simp] theorem State.raise_pc (c : FaultCode) (op a : Word) :
    (s.raise c op a).pc = s.pc - 2 := rfl
@[simp] theorem State.raise_sp (c : FaultCode) (op a : Word) : (s.raise c op a).sp = s.sp := rfl
@[simp] theorem State.raise_stack (c : FaultCode) (op a : Word) :
    (s.raise c op a).stack = s.stack := rfl
@[simp] theorem State.raise_dt (c : FaultCode) (op a : Word) : (s.raise c op a).dt = s.dt := rfl
@[simp] theorem State.raise_st (c : FaultCode) (op a : Word) : (s.raise c op a).st = s.st := rfl
@[simp] theorem State.raise_mem (c : FaultCode) (op a : Word) :
    (s.raise c op a).mem = s.mem := rfl
@[simp] theorem State.raise_fb (c : FaultCode) (op a : Word) : (s.raise c op a).fb = s.fb := rfl
@[simp] theorem State.raise_keys (c : FaultCode) (op a : Word) :
    (s.raise c op a).keys = s.keys := rfl
@[simp] theorem State.raise_fault (c : FaultCode) (op a : Word) :
    (s.raise c op a).fault = ⟨c, s.pc - 2, op, a⟩ := rfl
@[simp] theorem State.raise_prescale (c : FaultCode) (op a : Word) :
    (s.raise c op a).prescale = s.prescale := rfl
@[simp] theorem State.raise_params (c : FaultCode) (op a : Word) :
    (s.raise c op a).params = s.params := rfl
@[simp] theorem State.raise_draws (c : FaultCode) (op a : Word) :
    (s.raise c op a).draws = s.draws := rfl
@[simp] theorem State.raise_reg (c : FaultCode) (op a : Word) (r : Reg) :
    (s.raise c op a).reg r = s.reg r := rfl
@[simp] theorem State.raise_readByte (c : FaultCode) (op a : Word) (w : Word) :
    (s.raise c op a).readByte w = s.readByte w := rfl

/-! ### raiseFetch -/

@[simp] theorem State.raiseFetch_v (a : Word) : (s.raiseFetch a).v = s.v := rfl
@[simp] theorem State.raiseFetch_i (a : Word) : (s.raiseFetch a).i = s.i := rfl
@[simp] theorem State.raiseFetch_pc (a : Word) : (s.raiseFetch a).pc = s.pc := rfl
@[simp] theorem State.raiseFetch_sp (a : Word) : (s.raiseFetch a).sp = s.sp := rfl
@[simp] theorem State.raiseFetch_stack (a : Word) : (s.raiseFetch a).stack = s.stack := rfl
@[simp] theorem State.raiseFetch_dt (a : Word) : (s.raiseFetch a).dt = s.dt := rfl
@[simp] theorem State.raiseFetch_st (a : Word) : (s.raiseFetch a).st = s.st := rfl
@[simp] theorem State.raiseFetch_mem (a : Word) : (s.raiseFetch a).mem = s.mem := rfl
@[simp] theorem State.raiseFetch_fb (a : Word) : (s.raiseFetch a).fb = s.fb := rfl
@[simp] theorem State.raiseFetch_keys (a : Word) : (s.raiseFetch a).keys = s.keys := rfl
@[simp] theorem State.raiseFetch_fault (a : Word) :
    (s.raiseFetch a).fault = ⟨.memRangeFetch, s.pc, 0, a⟩ := rfl
@[simp] theorem State.raiseFetch_prescale (a : Word) :
    (s.raiseFetch a).prescale = s.prescale := rfl
@[simp] theorem State.raiseFetch_params (a : Word) : (s.raiseFetch a).params = s.params := rfl
@[simp] theorem State.raiseFetch_draws (a : Word) : (s.raiseFetch a).draws = s.draws := rfl
@[simp] theorem State.raiseFetch_reg (a : Word) (r : Reg) :
    (s.raiseFetch a).reg r = s.reg r := rfl
@[simp] theorem State.raiseFetch_readByte (a : Word) (w : Word) :
    (s.raiseFetch a).readByte w = s.readByte w := rfl

/-! ### tick -/

@[simp] theorem State.tick_v : (s.tick).v = s.v := rfl
@[simp] theorem State.tick_i : (s.tick).i = s.i := rfl
@[simp] theorem State.tick_pc : (s.tick).pc = s.pc := rfl
@[simp] theorem State.tick_sp : (s.tick).sp = s.sp := rfl
@[simp] theorem State.tick_stack : (s.tick).stack = s.stack := rfl
@[simp] theorem State.tick_dt : (s.tick).dt = countDown s.dt := rfl
@[simp] theorem State.tick_st : (s.tick).st = countDown s.st := rfl
@[simp] theorem State.tick_mem : (s.tick).mem = s.mem := rfl
@[simp] theorem State.tick_fb : (s.tick).fb = s.fb := rfl
@[simp] theorem State.tick_keys : (s.tick).keys = s.keys := rfl
@[simp] theorem State.tick_fault : (s.tick).fault = s.fault := rfl
@[simp] theorem State.tick_prescale : (s.tick).prescale = s.prescale := rfl
@[simp] theorem State.tick_params : (s.tick).params = s.params := rfl
@[simp] theorem State.tick_draws : (s.tick).draws = s.draws := rfl
@[simp] theorem State.tick_reg (r : Reg) : (s.tick).reg r = s.reg r := rfl
@[simp] theorem State.tick_readByte (w : Word) : (s.tick).readByte w = s.readByte w := rfl
@[simp] theorem State.tick_halted : (s.tick).halted = s.halted := rfl

/-! ### writeBytes -/

@[simp] theorem State.writeBytes_v (bs : List Byte) (a : Word) : (s.writeBytes a bs).v = s.v := by
  induction bs generalizing s a with
  | nil => rfl
  | cons b bs ih => exact ih (s.writeByte a b) (a + 1)
@[simp] theorem State.writeBytes_i (bs : List Byte) (a : Word) : (s.writeBytes a bs).i = s.i := by
  induction bs generalizing s a with
  | nil => rfl
  | cons b bs ih => exact ih (s.writeByte a b) (a + 1)
@[simp] theorem State.writeBytes_pc (bs : List Byte) (a : Word) :
    (s.writeBytes a bs).pc = s.pc := by
  induction bs generalizing s a with
  | nil => rfl
  | cons b bs ih => exact ih (s.writeByte a b) (a + 1)
@[simp] theorem State.writeBytes_sp (bs : List Byte) (a : Word) :
    (s.writeBytes a bs).sp = s.sp := by
  induction bs generalizing s a with
  | nil => rfl
  | cons b bs ih => exact ih (s.writeByte a b) (a + 1)
@[simp] theorem State.writeBytes_stack (bs : List Byte) (a : Word) :
    (s.writeBytes a bs).stack = s.stack := by
  induction bs generalizing s a with
  | nil => rfl
  | cons b bs ih => exact ih (s.writeByte a b) (a + 1)
@[simp] theorem State.writeBytes_dt (bs : List Byte) (a : Word) :
    (s.writeBytes a bs).dt = s.dt := by
  induction bs generalizing s a with
  | nil => rfl
  | cons b bs ih => exact ih (s.writeByte a b) (a + 1)
@[simp] theorem State.writeBytes_st (bs : List Byte) (a : Word) :
    (s.writeBytes a bs).st = s.st := by
  induction bs generalizing s a with
  | nil => rfl
  | cons b bs ih => exact ih (s.writeByte a b) (a + 1)
@[simp] theorem State.writeBytes_fb (bs : List Byte) (a : Word) :
    (s.writeBytes a bs).fb = s.fb := by
  induction bs generalizing s a with
  | nil => rfl
  | cons b bs ih => exact ih (s.writeByte a b) (a + 1)
@[simp] theorem State.writeBytes_keys (bs : List Byte) (a : Word) :
    (s.writeBytes a bs).keys = s.keys := by
  induction bs generalizing s a with
  | nil => rfl
  | cons b bs ih => exact ih (s.writeByte a b) (a + 1)
@[simp] theorem State.writeBytes_fault (bs : List Byte) (a : Word) :
    (s.writeBytes a bs).fault = s.fault := by
  induction bs generalizing s a with
  | nil => rfl
  | cons b bs ih => exact ih (s.writeByte a b) (a + 1)
@[simp] theorem State.writeBytes_prescale (bs : List Byte) (a : Word) :
    (s.writeBytes a bs).prescale = s.prescale := by
  induction bs generalizing s a with
  | nil => rfl
  | cons b bs ih => exact ih (s.writeByte a b) (a + 1)
@[simp] theorem State.writeBytes_params (bs : List Byte) (a : Word) :
    (s.writeBytes a bs).params = s.params := by
  induction bs generalizing s a with
  | nil => rfl
  | cons b bs ih => exact ih (s.writeByte a b) (a + 1)
@[simp] theorem State.writeBytes_draws (bs : List Byte) (a : Word) :
    (s.writeBytes a bs).draws = s.draws := by
  induction bs generalizing s a with
  | nil => rfl
  | cons b bs ih => exact ih (s.writeByte a b) (a + 1)
@[simp] theorem State.writeBytes_reg (bs : List Byte) (a : Word) (r : Reg) :
    (s.writeBytes a bs).reg r = s.reg r := by
  simp [State.reg]
@[simp] theorem State.writeBytes_halted (bs : List Byte) (a : Word) :
    (s.writeBytes a bs).halted = s.halted := by
  simp [State.halted]

/-! ### setRegsFrom -/

@[simp] theorem State.setRegsFrom_i (bs : List Byte) (k : Nat) :
    (s.setRegsFrom k bs).i = s.i := by
  induction bs generalizing s k with
  | nil => rfl
  | cons b bs ih => exact ih (s.setReg (Fin.ofNat 16 k) b) (k + 1)
@[simp] theorem State.setRegsFrom_pc (bs : List Byte) (k : Nat) :
    (s.setRegsFrom k bs).pc = s.pc := by
  induction bs generalizing s k with
  | nil => rfl
  | cons b bs ih => exact ih (s.setReg (Fin.ofNat 16 k) b) (k + 1)
@[simp] theorem State.setRegsFrom_sp (bs : List Byte) (k : Nat) :
    (s.setRegsFrom k bs).sp = s.sp := by
  induction bs generalizing s k with
  | nil => rfl
  | cons b bs ih => exact ih (s.setReg (Fin.ofNat 16 k) b) (k + 1)
@[simp] theorem State.setRegsFrom_stack (bs : List Byte) (k : Nat) :
    (s.setRegsFrom k bs).stack = s.stack := by
  induction bs generalizing s k with
  | nil => rfl
  | cons b bs ih => exact ih (s.setReg (Fin.ofNat 16 k) b) (k + 1)
@[simp] theorem State.setRegsFrom_dt (bs : List Byte) (k : Nat) :
    (s.setRegsFrom k bs).dt = s.dt := by
  induction bs generalizing s k with
  | nil => rfl
  | cons b bs ih => exact ih (s.setReg (Fin.ofNat 16 k) b) (k + 1)
@[simp] theorem State.setRegsFrom_st (bs : List Byte) (k : Nat) :
    (s.setRegsFrom k bs).st = s.st := by
  induction bs generalizing s k with
  | nil => rfl
  | cons b bs ih => exact ih (s.setReg (Fin.ofNat 16 k) b) (k + 1)
@[simp] theorem State.setRegsFrom_mem (bs : List Byte) (k : Nat) :
    (s.setRegsFrom k bs).mem = s.mem := by
  induction bs generalizing s k with
  | nil => rfl
  | cons b bs ih => exact ih (s.setReg (Fin.ofNat 16 k) b) (k + 1)
@[simp] theorem State.setRegsFrom_fb (bs : List Byte) (k : Nat) :
    (s.setRegsFrom k bs).fb = s.fb := by
  induction bs generalizing s k with
  | nil => rfl
  | cons b bs ih => exact ih (s.setReg (Fin.ofNat 16 k) b) (k + 1)
@[simp] theorem State.setRegsFrom_keys (bs : List Byte) (k : Nat) :
    (s.setRegsFrom k bs).keys = s.keys := by
  induction bs generalizing s k with
  | nil => rfl
  | cons b bs ih => exact ih (s.setReg (Fin.ofNat 16 k) b) (k + 1)
@[simp] theorem State.setRegsFrom_fault (bs : List Byte) (k : Nat) :
    (s.setRegsFrom k bs).fault = s.fault := by
  induction bs generalizing s k with
  | nil => rfl
  | cons b bs ih => exact ih (s.setReg (Fin.ofNat 16 k) b) (k + 1)
@[simp] theorem State.setRegsFrom_prescale (bs : List Byte) (k : Nat) :
    (s.setRegsFrom k bs).prescale = s.prescale := by
  induction bs generalizing s k with
  | nil => rfl
  | cons b bs ih => exact ih (s.setReg (Fin.ofNat 16 k) b) (k + 1)
@[simp] theorem State.setRegsFrom_params (bs : List Byte) (k : Nat) :
    (s.setRegsFrom k bs).params = s.params := by
  induction bs generalizing s k with
  | nil => rfl
  | cons b bs ih => exact ih (s.setReg (Fin.ofNat 16 k) b) (k + 1)
@[simp] theorem State.setRegsFrom_draws (bs : List Byte) (k : Nat) :
    (s.setRegsFrom k bs).draws = s.draws := by
  induction bs generalizing s k with
  | nil => rfl
  | cons b bs ih => exact ih (s.setReg (Fin.ofNat 16 k) b) (k + 1)
@[simp] theorem State.setRegsFrom_readByte (bs : List Byte) (k : Nat) (w : Word) :
    (s.setRegsFrom k bs).readByte w = s.readByte w := by
  simp [State.readByte]
@[simp] theorem State.setRegsFrom_halted (bs : List Byte) (k : Nat) :
    (s.setRegsFrom k bs).halted = s.halted := by
  simp [State.halted]

/-! ### skipIf -/

@[simp] theorem State.skipIf_v (c : Bool) : (s.skipIf c).v = s.v := by
  cases c <;> rfl
@[simp] theorem State.skipIf_i (c : Bool) : (s.skipIf c).i = s.i := by
  cases c <;> rfl
@[simp] theorem State.skipIf_pc (c : Bool) : (s.skipIf c).pc = if c then s.pc + 2 else s.pc := by
  cases c <;> rfl
@[simp] theorem State.skipIf_sp (c : Bool) : (s.skipIf c).sp = s.sp := by
  cases c <;> rfl
@[simp] theorem State.skipIf_stack (c : Bool) : (s.skipIf c).stack = s.stack := by
  cases c <;> rfl
@[simp] theorem State.skipIf_dt (c : Bool) : (s.skipIf c).dt = s.dt := by
  cases c <;> rfl
@[simp] theorem State.skipIf_st (c : Bool) : (s.skipIf c).st = s.st := by
  cases c <;> rfl
@[simp] theorem State.skipIf_mem (c : Bool) : (s.skipIf c).mem = s.mem := by
  cases c <;> rfl
@[simp] theorem State.skipIf_fb (c : Bool) : (s.skipIf c).fb = s.fb := by
  cases c <;> rfl
@[simp] theorem State.skipIf_keys (c : Bool) : (s.skipIf c).keys = s.keys := by
  cases c <;> rfl
@[simp] theorem State.skipIf_fault (c : Bool) : (s.skipIf c).fault = s.fault := by
  cases c <;> rfl
@[simp] theorem State.skipIf_prescale (c : Bool) : (s.skipIf c).prescale = s.prescale := by
  cases c <;> rfl
@[simp] theorem State.skipIf_params (c : Bool) : (s.skipIf c).params = s.params := by
  cases c <;> rfl
@[simp] theorem State.skipIf_draws (c : Bool) : (s.skipIf c).draws = s.draws := by
  cases c <;> rfl
@[simp] theorem State.skipIf_reg (c : Bool) (r : Reg) : (s.skipIf c).reg r = s.reg r := by
  simp [State.reg]
@[simp] theorem State.skipIf_readByte (c : Bool) (w : Word) :
    (s.skipIf c).readByte w = s.readByte w := by
  simp [State.readByte]
@[simp] theorem State.skipIf_halted (c : Bool) : (s.skipIf c).halted = s.halted := by
  simp [State.halted]

/-! ### A register read after a register write -/

theorem State.reg_setReg (x r : Reg) (b : Byte) :
    (s.setReg x b).reg r = if r = x then b else s.reg r := by
  by_cases h : r = x
  · simp [State.reg, h]
  · simp only [State.reg, State.setReg_v, h, if_false]
    exact Vector.getElem_set_ne x.isLt r.isLt fun e => h (Fin.ext e.symm)

@[simp] theorem State.reg_setReg_same (x : Reg) (b : Byte) : (s.setReg x b).reg x = b := by
  simp [State.reg_setReg]

theorem State.reg_setReg_other {x r : Reg} (b : Byte) (h : r ≠ x) :
    (s.setReg x b).reg r = s.reg r := by
  simp [State.reg_setReg, h]

end Sys2Proof.Machine
end

