-- ==== Sys2Proof/Laws/Memory.lean ====
section
/-! SUPPORT. Memory: a read after a write, and every memory operation keeps the canonical form. -/

namespace Sys2Proof.Machine

/-! ## Lookup after insert and erase -/

theorem Memory.lookup_insert (a c : Nat) (b : Byte) (m : List Host.Cell) :
    Memory.lookup (Memory.insert a b m) c = if a = c then some b else Memory.lookup m c := by
  induction m with
  | nil => simp [Memory.insert, Memory.lookup]
  | cons d ds ih =>
    simp only [Memory.insert]
    split
    · next h =>
      simp only [Memory.lookup, ih]
      split <;> split <;> simp_all
    · split
      · next h =>
        simp only [Memory.lookup, h]
        split <;> rfl
      · simp [Memory.lookup]

theorem Memory.lookup_erase (a c : Nat) (m : List Host.Cell) :
    Memory.lookup (Memory.erase a m) c = if a = c then none else Memory.lookup m c := by
  induction m with
  | nil => simp [Memory.erase, Memory.lookup]
  | cons d ds ih =>
    simp only [Memory.erase, List.filter_cons] at ih ⊢
    by_cases h : d.1 = a <;> by_cases h' : a = c <;> simp_all [Memory.lookup]

/-! ## A read after a write -/

theorem Memory.read_write (font : Vector Byte 80) (m : List Host.Cell) (a c : Nat) (b : Byte) :
    Memory.read font (Memory.write font m a b) c = if a = c then b else Memory.read font m c := by
  unfold Memory.write
  split
  · next h =>
    by_cases hc : a = c
    · subst hc; simp [Memory.read, Memory.lookup_erase, h]
    · simp [Memory.read, Memory.lookup_erase, hc]
  · by_cases hc : a = c <;> simp [Memory.read, Memory.lookup_insert, hc]

/-- MemRead after MemWrite, at every address (spec/20_memory.md R59). -/
theorem State.readByte_writeByte (s : State) (a c : Word) (b : Byte) :
    (s.writeByte a b).readByte c = if c = a then b else s.readByte c := by
  simp only [State.readByte, State.writeByte_params, State.writeByte_mem, Memory.read_write]
  by_cases h : c = a
  · simp [h]
  · have : a.toNat ≠ c.toNat := fun e => h (BitVec.eq_of_toNat_eq e.symm)
    simp [h, this]

/-- The address k + 1 past base is k past base + 1. -/
theorem address_succ (base : Word) (k : Nat) :
    base + BitVec.ofNat 16 (k + 1) = base + 1 + BitVec.ofNat 16 k := by
  rw [BitVec.add_assoc]
  congr 1
  apply BitVec.eq_of_toNat_eq
  simp [Nat.add_comm]

/-- A byte outside the bytes a multi-byte write stores keeps its value. -/
theorem State.readByte_writeBytes_other (s : State) (base c : Word) (bs : List Byte)
    (h : ∀ k < bs.length, c ≠ base + BitVec.ofNat 16 k) :
    (s.writeBytes base bs).readByte c = s.readByte c := by
  induction bs generalizing s base with
  | nil => rfl
  | cons b bs ih =>
    have h0 : c ≠ base := by simpa using h 0 (by simp)
    rw [State.writeBytes, ih, State.readByte_writeByte, if_neg h0]
    intro k hk e
    refine h (k + 1) (by simpa using hk) ?_
    rw [e, address_succ]

/-- Byte j of a multi-byte write of at most 65536 bytes is at base + j. -/
theorem State.readByte_writeBytes (s : State) (base : Word) (bs : List Byte)
    (hl : bs.length ≤ 65536) (j : Nat) (hj : j < bs.length) :
    (s.writeBytes base bs).readByte (base + BitVec.ofNat 16 j) = bs[j] := by
  induction bs generalizing s base j with
  | nil => simp at hj
  | cons b bs ih =>
    have hl' : bs.length < 65536 := by simpa using hl
    cases j with
    | zero =>
      rw [State.writeBytes, State.readByte_writeBytes_other]
      · simp [State.readByte_writeByte]
      · intro k hk e
        have := congrArg BitVec.toNat e
        have h1 : (1 : Word).toNat = 1 := rfl
        simp only [BitVec.toNat_add, BitVec.toNat_ofNat] at this
        omega
    | succ j =>
      rw [address_succ, State.writeBytes]
      exact ih (s.writeByte base b) (base + 1) (by omega) j (by simpa using hj)

/-! ## The canonical form -/

/-- Inserting into a rising memory keeps it rising, and adds no address but `a`. -/
theorem Memory.mem_insert {a : Nat} {b : Byte} {m : List Host.Cell} {c : Host.Cell}
    (h : c ∈ Memory.insert a b m) : c = (a, b) ∨ c ∈ m := by
  induction m with
  | nil => simpa [Memory.insert] using h
  | cons d ds ih =>
    simp only [Memory.insert] at h
    split at h
    · rcases List.mem_cons.1 h with h | h
      · simp [h]
      · rcases ih h with h | h <;> simp [h]
    · split at h
      · rcases List.mem_cons.1 h with h | h <;> simp [h]
      · rcases List.mem_cons.1 h with h | h
        · simp [h]
        · exact .inr h

theorem Memory.rising_insert (a : Nat) (b : Byte) (m : List Host.Cell)
    (h : Memory.rising m = true) : Memory.rising (Memory.insert a b m) = true := by
  induction m with
  | nil => rfl
  | cons d ds ih =>
    simp only [Memory.rising, Bool.and_eq_true, List.all_eq_true, decide_eq_true_eq] at h
    simp only [Memory.insert]
    split
    · next hlt =>
      simp only [Memory.rising, Bool.and_eq_true, List.all_eq_true, decide_eq_true_eq]
      refine ⟨fun c hc => ?_, ih h.2⟩
      rcases Memory.mem_insert hc with rfl | hc
      · exact hlt
      · exact h.1 c hc
    · split
      · next heq =>
        simp only [Memory.rising, Bool.and_eq_true, List.all_eq_true, decide_eq_true_eq]
        exact ⟨fun c hc => heq ▸ h.1 c hc, h.2⟩
      · next hge hne =>
        simp only [Memory.rising, Bool.and_eq_true, List.all_eq_true, decide_eq_true_eq]
        refine ⟨fun c hc => ?_, h⟩
        rcases List.mem_cons.1 hc with rfl | hc
        · omega
        · have := h.1 c hc; omega

theorem Memory.rising_filter (p : Host.Cell → Bool) (m : List Host.Cell)
    (h : Memory.rising m = true) : Memory.rising (m.filter p) = true := by
  induction m with
  | nil => rfl
  | cons d ds ih =>
    simp only [Memory.rising, Bool.and_eq_true, List.all_eq_true, decide_eq_true_eq] at h
    rw [List.filter_cons]
    split
    · simp only [Memory.rising, Bool.and_eq_true, List.all_eq_true, decide_eq_true_eq]
      exact ⟨fun c hc => h.1 c (List.mem_filter.1 hc).1, ih h.2⟩
    · exact ih h.2

/-- What the canonical form says, as a proposition. -/
theorem Memory.wf_iff (font : Vector Byte 80) (m : List Host.Cell) :
    Memory.wf font m = true ↔
      Memory.rising m = true ∧
        ∀ c ∈ m, c.1 ≤ lastAddress ∧ Memory.blank font c.1 ≠ some c.2 := by
  simp [Memory.wf]

theorem Memory.wf_filter (font : Vector Byte 80) (p : Host.Cell → Bool) (m : List Host.Cell)
    (h : Memory.wf font m = true) : Memory.wf font (m.filter p) = true := by
  rw [Memory.wf_iff] at h ⊢
  exact ⟨Memory.rising_filter p m h.1, fun c hc => h.2 c (List.mem_filter.1 hc).1⟩

/-- A write inside MEM keeps the canonical form. -/
theorem Memory.wf_write (font : Vector Byte 80) (m : List Host.Cell) (a : Nat) (b : Byte)
    (ha : a ≤ lastAddress) (h : Memory.wf font m = true) :
    Memory.wf font (Memory.write font m a b) = true := by
  unfold Memory.write
  split
  · exact Memory.wf_filter font _ m h
  · next hb =>
    rw [Memory.wf_iff] at h ⊢
    refine ⟨Memory.rising_insert a b m h.1, fun c hc => ?_⟩
    rcases Memory.mem_insert hc with rfl | hc
    · exact ⟨ha, hb⟩
    · exact h.2 c hc

/-- A multi-byte write whose addresses are all inside MEM keeps the canonical form. -/
theorem State.wf_writeBytes (s : State) (base : Word) (bs : List Byte)
    (hr : ∀ k < bs.length, (base + BitVec.ofNat 16 k).toNat ≤ lastAddress)
    (h : Memory.wf s.params.font s.mem = true) :
    Memory.wf (s.writeBytes base bs).params.font (s.writeBytes base bs).mem = true := by
  induction bs generalizing s base with
  | nil => exact h
  | cons b bs ih =>
    rw [State.writeBytes]
    refine ih (s.writeByte base b) (base + 1) ?_ ?_
    · intro k hk
      have := hr (k + 1) (by simpa using hk)
      rwa [← address_succ]
    · have := hr 0 (by simp)
      exact Memory.wf_write _ _ _ _ (by simpa using this) h

end Sys2Proof.Machine
end

