-- ==== Sys2Proof/Laws/Ops.lean ====
section
/-! SUPPORT. One lemma per shared operation, saying once what it can do: range checks, block transfers,
the framebuffer controller, the key set, the draw of a key, fetch, faults and the end of a STEP. -/

namespace Sys2Proof.Machine

/-! ## Range checks -/

theorem outOfRange_iff (a : Word) : outOfRange a = true ↔ 0xFFF < a.toNat := by
  simp [outOfRange]

@[simp] theorem accessAddresses_length (base : Word) (n : Nat) :
    (accessAddresses base n).length = n := by simp [accessAddresses]

/-- The range check passes exactly when every address of the access is in MEM. -/
theorem firstOutOfRange_eq_none (base : Word) (n : Nat) :
    firstOutOfRange base n = none ↔ ∀ k < n, (base + BitVec.ofNat 16 k).toNat ≤ 0xFFF := by
  simp [firstOutOfRange, accessAddresses, outOfRange, lastAddress]

/-- The range check reports the first address, in access order, that is outside MEM. -/
theorem firstOutOfRange_eq_some (base : Word) (n : Nat) (a : Word) :
    firstOutOfRange base n = some a ↔
      ∃ k < n, a = base + BitVec.ofNat 16 k ∧ 0xFFF < a.toNat ∧
        ∀ j < k, (base + BitVec.ofNat 16 j).toNat ≤ 0xFFF := by
  simp only [firstOutOfRange, List.find?_eq_some_iff_getElem, outOfRange_iff]
  constructor
  · rintro ⟨h, k, hk, rfl, hj⟩
    simp only [accessAddresses_length] at hk
    refine ⟨k, hk, by simp [accessAddresses], h, fun j hjk => ?_⟩
    have := hj j hjk
    simpa [accessAddresses, outOfRange, lastAddress] using this
  · rintro ⟨k, hk, rfl, h, hj⟩
    refine ⟨h, k, by simpa using hk, by simp [accessAddresses], fun j hjk => ?_⟩
    have := hj j hjk
    simpa [accessAddresses, outOfRange, lastAddress] using this

/-! ## Block transfers -/

@[simp] theorem State.readBytes_length (s : State) (base : Word) (n : Nat) :
    (s.readBytes base n).length = n := by simp [State.readBytes]

theorem State.readBytes_getElem (s : State) (base : Word) (n k : Nat) (h : k < n) :
    (s.readBytes base n)[k]'(by simpa using h) = s.readByte (base + BitVec.ofNat 16 k) := by
  simp [State.readBytes, accessAddresses]

@[simp] theorem State.regsUpTo_length (s : State) (n : Nat) : (s.regsUpTo n).length = n := by
  simp [State.regsUpTo]

theorem State.regsUpTo_getElem (s : State) (n k : Nat) (h : k < n) :
    (s.regsUpTo n)[k]'(by simpa using h) = s.reg (Fin.ofNat 16 k) := by
  simp [State.regsUpTo]

/-- Registers k, k + 1, … receive the bytes in order; every other register keeps its value. -/
theorem State.reg_setRegsFrom (s : State) (k : Nat) (bs : List Byte) (hk : k + bs.length ≤ 16)
    (r : Reg) :
    (s.setRegsFrom k bs).reg r =
      if h : k ≤ r.val ∧ r.val < k + bs.length then bs[r.val - k]'(by omega) else s.reg r := by
  induction bs generalizing s k with
  | nil =>
    rw [State.setRegsFrom, dif_neg]
    simp only [List.length_nil]
    omega
  | cons b bs ih =>
    simp only [List.length_cons] at hk
    rw [State.setRegsFrom, ih _ _ (by omega)]
    have hv : (Fin.ofNat 16 k).val = k := by simp [Fin.ofNat]; omega
    by_cases h0 : r.val = k
    · have hr : r = Fin.ofNat 16 k := Fin.ext (by rw [hv, h0])
      rw [dif_neg (by omega), dif_pos (by simp only [List.length_cons]; omega), ← hr]
      simp [h0]
    · have hr : r ≠ Fin.ofNat 16 k := fun e => h0 (by rw [e, hv])
      by_cases h1 : k + 1 ≤ r.val ∧ r.val < k + 1 + bs.length
      · rw [dif_pos h1, dif_pos (by simp only [List.length_cons]; omega)]
        have : r.val - k = r.val - (k + 1) + 1 := by omega
        simp [this]
      · rw [dif_neg h1, dif_neg (by simp only [List.length_cons]; omega)]
        exact State.reg_setReg_other _ _ hr

/-! ## Framebuffer controller -/

/-- A toggle changes the pixel at its wrapped coordinates, and no other (R150). -/
theorem pixel_setPixel (fb : Vector PixelRow 32) (X Y X' Y' : Nat) :
    pixel (setPixel fb X Y).1 X' Y' =
      (pixel fb X' Y' ^^ decide (X' % 64 = X % 64 ∧ Y' % 32 = Y % 32)) := by
  have hx : X % 64 < 64 := Nat.mod_lt _ (by decide)
  simp only [pixel, setPixel, Vector.getElem_set]
  by_cases hy : Y' % 32 = Y % 32
  · simp only [hy, if_true, and_true, BitVec.getLsbD_xor, BitVec.getLsbD_twoPow, hx, decide_true,
      Bool.true_and]
    simp [eq_comm]
  · have hy' : ¬ Y % 32 = Y' % 32 := fun h => hy h.symm
    simp [hy, hy']

/-- A toggle answers true exactly when the pixel went from 1 to 0 (R150, R151). -/
theorem setPixel_collides (fb : Vector PixelRow 32) (X Y : Nat) :
    (setPixel fb X Y).2 = pixel fb X Y := by
  have h : (setPixel fb X Y).2 = !pixel (setPixel fb X Y).1 X Y := rfl
  rw [h, pixel_setPixel]
  simp

@[simp] theorem pixel_clearFb (X Y : Nat) : pixel clearFb X Y = false := by
  simp [pixel, clearFb]

/-! ## Keys -/

theorem mem_allKeys (k : Key) : k ∈ allKeys := by revert k; decide

@[simp] theorem State.isPressed_keyByte (s : State) (k : Key) :
    s.isPressed (keyByte k) = s.keys.getLsbD k.val := by
  have h := k.isLt
  have e : (keyByte k).toNat = k.val := by simp [keyByte]; omega
  simp [State.isPressed, e]
  omega

theorem State.mem_heldKeys (s : State) (k : Key) :
    k ∈ s.heldKeys ↔ s.keys.getLsbD k.val = true := by
  simp [State.heldKeys, mem_allKeys]

/-- No key is held exactly when KEYS is 0. -/
theorem State.heldKeys_eq_nil (s : State) : s.heldKeys = [] ↔ s.keys = 0 := by
  constructor
  · intro h
    apply BitVec.eq_of_getLsbD_eq
    intro k hk
    have := (s.mem_heldKeys ⟨k, hk⟩).not.1 (by simp [h])
    simpa using this
  · intro h
    rw [List.eq_nil_iff_forall_not_mem]
    intro k hk
    rw [s.mem_heldKeys, h] at hk
    simp at hk

/-- The draw of a key answers a member of the set. -/
theorem chooseKey_mem (d : Nat) (k : Key) (ks : List Key) : chooseKey d k ks ∈ k :: ks := by
  induction ks generalizing k with
  | nil => simp [chooseKey]
  | cons k' ks ih =>
    rw [chooseKey]
    split
    · simp
    · exact List.mem_cons_of_mem _ (ih k')

/-! ## Fetch -/

theorem State.fetch_of_inRange (s : State) (h : s.pc.toNat ≤ 0xFFE) :
    s.fetch = .ok (opcodeOfBytes (s.readByte s.pc) (s.readByte (s.pc + 1))) := by
  have h1 : ¬ outOfRange s.pc = true := by rw [outOfRange_iff]; omega
  have h2 : ¬ outOfRange (s.pc + 1) = true := by
    have : (1 : Word).toNat = 1 := rfl
    rw [outOfRange_iff, BitVec.toNat_add]
    omega
  rw [State.fetch, if_neg h1, if_neg h2]

theorem State.fetch_of_outOfRange (s : State) (h : 0xFFE < s.pc.toNat) :
    s.fetch = .error (if s.pc = 0xFFF then 0x1000 else s.pc) := by
  by_cases e : s.pc = 0xFFF
  · simp [State.fetch, e, outOfRange]
  · have : s.pc.toNat ≠ 0xFFF := fun h => e (BitVec.eq_of_toNat_eq h)
    have h1 : outOfRange s.pc = true := by rw [outOfRange_iff]; omega
    rw [State.fetch, if_pos h1, if_neg e]

/-! ## Faults and the end of a STEP -/

theorem State.halted_iff (s : State) : s.halted = true ↔ s.fault.code ≠ .none := by
  simp [State.halted]

/-- Raising a fault halts the engine, and changes PC and FAULT only. -/
theorem State.halted_raise (s : State) (c : FaultCode) (op a : Word) (h : c ≠ .none) :
    (s.raise c op a).halted = true := by
  simp [State.halted, h]

/-- Before the dispatch the PC was two lower: a raise leaves the PC of the instruction. -/
@[simp] theorem State.pc_advance_sub (s : State) : s.advancePc.pc - 2 = s.pc := by
  simp

/-- The end of a STEP changes PRESCALE and the timers at most. -/
theorem State.finishStep_cases (s : State) :
    s.finishStep = s ∨
    (s.halted = false ∧ s.params.timerMode = .everyN ∧ s.prescale + 1 = s.params.timerN ∧
      s.finishStep = { s with prescale := 0, dt := countDown s.dt, st := countDown s.st }) ∨
    (s.halted = false ∧ s.params.timerMode = .everyN ∧ s.prescale + 1 ≠ s.params.timerN ∧
      s.finishStep = { s with prescale := s.prescale + 1 }) := by
  unfold State.finishStep
  split
  · exact .inl rfl
  · next hh =>
    have hh : s.halted = false := by simpa using hh
    unfold State.advancePrescale
    split
    · exact .inl rfl
    · next hm =>
      split
      · next hn => exact .inr (.inl ⟨hh, hm, hn, rfl⟩)
      · next hn => exact .inr (.inr ⟨hh, hm, hn, rfl⟩)

/-! ## STEP, by what it finds -/

theorem step_of_halted (s : State) (h : s.halted = true) : step s = .next s := by
  simp [step, h]

theorem step_of_fetch_error (s : State) (a : Word) (h : s.halted = false)
    (hf : s.fetch = .error a) : step s = .next (s.raiseFetch a) := by
  simp [step, h, hf]

theorem step_of_unmatched (s : State) (op : Word) (e : Unmatched) (h : s.halted = false)
    (hf : s.fetch = .ok op) (hd : decode op = .error e) :
    step s = .next (s.advancePc.runUnmatched op).finishStep := by
  simp [step, h, hf, hd]

theorem step_of_decoded (s t : State) (op : Word) (i : Instr) (h : s.halted = false)
    (hf : s.fetch = .ok op) (hd : decode op = .ok i) (he : exec i s.advancePc = .next t) :
    step s = .next t.finishStep := by
  simp [step, h, hf, hd, he]

end Sys2Proof.Machine
end

