-- ==== Sys2Proof/Laws/Display.lean ====
section
/-! SUPPORT. What a DRW draws: the cells its sprite covers are distinct pixels (spec/43_display.md R156),
each is toggled once, and the flag says whether one of them was on. -/

namespace Sys2Proof.Machine

/-- The cells the 1 bits of one sprite row fall on, before wrapping. -/
def rowCells (cx Y : Nat) (b : Byte) : List (Nat × Nat) :=
  ((List.range 8).filter fun col => b.getLsbD (7 - col)).map fun col => (cx + col, Y)

/-- The cells the 1 bits of the rows bs, drawn from (cx, Y) down, fall on. -/
def spriteCells (cx : Nat) : Nat → List Byte → List (Nat × Nat)
  | _, [] => []
  | Y, b :: bs => rowCells cx Y b ++ spriteCells cx (Y + 1) bs

/-- Two cells are the same pixel when both coordinates agree after wrapping. -/
def SamePixel (c d : Nat × Nat) : Prop := c.1 % 64 = d.1 % 64 ∧ c.2 % 32 = d.2 % 32

/-- Toggle cells one after the other. -/
def toggleCells (cells : List (Nat × Nat)) (acc : Vector PixelRow 32 × Bool) :
    Vector PixelRow 32 × Bool :=
  cells.foldl (fun acc c => toggle c.1 c.2 acc) acc

theorem drawRow_eq (cx Y : Nat) (b : Byte) (acc : Vector PixelRow 32 × Bool) :
    drawRow cx Y b acc = toggleCells (rowCells cx Y b) acc := by
  simp only [drawRow, toggleCells, rowCells, List.foldl_map, List.foldl_filter]

theorem drawRows_eq (cx Y : Nat) (bs : List Byte) (acc : Vector PixelRow 32 × Bool) :
    drawRows cx Y bs acc = toggleCells (spriteCells cx Y bs) acc := by
  induction bs generalizing Y acc with
  | nil => rfl
  | cons b bs ih =>
    rw [drawRows, ih, drawRow_eq, spriteCells, toggleCells, toggleCells, toggleCells,
      List.foldl_append]

theorem mem_rowCells (cx Y : Nat) (b : Byte) (c : Nat × Nat) :
    c ∈ rowCells cx Y b ↔ ∃ col < 8, b.getLsbD (7 - col) = true ∧ c = (cx + col, Y) := by
  simp only [rowCells, List.mem_map, List.mem_filter, List.mem_range]
  constructor
  · rintro ⟨col, ⟨h, hb⟩, rfl⟩
    exact ⟨col, h, hb, rfl⟩
  · rintro ⟨col, h, hb, rfl⟩
    exact ⟨col, ⟨h, hb⟩, rfl⟩

theorem mem_spriteCells (cx Y : Nat) (bs : List Byte) (c : Nat × Nat) :
    c ∈ spriteCells cx Y bs ↔ ∃ row, ∃ h : row < bs.length, ∃ col < 8,
      bs[row].getLsbD (7 - col) = true ∧ c = (cx + col, Y + row) := by
  induction bs generalizing Y with
  | nil => simp [spriteCells]
  | cons b bs ih =>
    rw [spriteCells, List.mem_append, mem_rowCells, ih]
    constructor
    · rintro (⟨col, h, hb, rfl⟩ | ⟨row, hr, col, h, hb, rfl⟩)
      · exact ⟨0, by simp, col, h, hb, rfl⟩
      · exact ⟨row + 1, by simpa using hr, col, h, hb, by rw [Nat.add_assoc, Nat.add_comm 1]⟩
    · rintro ⟨row, hr, col, h, hb, rfl⟩
      cases row with
      | zero => exact .inl ⟨col, h, hb, rfl⟩
      | succ row =>
        exact .inr ⟨row, by simpa using hr, col, h, hb, by rw [Nat.add_assoc, Nat.add_comm 1]⟩

/-- One DRW never toggles the same pixel twice (R156): its cells are pairwise different pixels. -/
theorem spriteCells_distinct (cx Y : Nat) (bs : List Byte) (h : bs.length ≤ 32) :
    (spriteCells cx Y bs).Pairwise fun c d => ¬ SamePixel c d := by
  induction bs generalizing Y with
  | nil => exact List.Pairwise.nil
  | cons b bs ih =>
    simp only [List.length_cons] at h
    rw [spriteCells, List.pairwise_append]
    refine ⟨?_, ih (Y + 1) (by omega), ?_⟩
    · rw [rowCells, List.pairwise_map]
      have hp : (List.range 8).Pairwise (· < ·) := List.pairwise_lt_range
      have hb : ∀ c ∈ List.range 8, c < 8 := fun c hc => List.mem_range.1 hc
      have : (List.range 8).Pairwise fun a b => a < b ∧ b < 8 :=
        hp.imp_of_mem fun _ hb' hlt => ⟨hlt, hb _ hb'⟩
      refine (this.filter _).imp ?_
      rintro a b ⟨hlt, hb⟩ ⟨he, -⟩
      simp only at he
      omega
    · intro c hc d hd
      rw [mem_rowCells] at hc
      rw [mem_spriteCells] at hd
      obtain ⟨col, -, -, rfl⟩ := hc
      obtain ⟨row, hr, col', -, -, rfl⟩ := hd
      rintro ⟨-, he⟩
      simp only at he
      omega

/-- Toggling pairwise different pixels flips exactly those (R150). -/
theorem pixel_toggleCells (cells : List (Nat × Nat)) (acc : Vector PixelRow 32 × Bool)
    (hd : cells.Pairwise fun c d => ¬ SamePixel c d) (X Y : Nat) :
    pixel (toggleCells cells acc).1 X Y ≠ pixel acc.1 X Y ↔ ∃ c ∈ cells, SamePixel c (X, Y) := by
  induction cells generalizing acc with
  | nil => simp [toggleCells]
  | cons c cs ih =>
    rw [List.pairwise_cons] at hd
    have ih := ih (toggle c.1 c.2 acc) hd.2
    have hp : pixel (toggle c.1 c.2 acc).1 X Y =
        (pixel acc.1 X Y ^^ decide (X % 64 = c.1 % 64 ∧ Y % 32 = c.2 % 32)) :=
      pixel_setPixel acc.1 c.1 c.2 X Y
    have e : toggleCells (c :: cs) acc = toggleCells cs (toggle c.1 c.2 acc) := rfl
    rw [e]
    by_cases hc : SamePixel c (X, Y)
    · have hnot : ¬ ∃ d ∈ cs, SamePixel d (X, Y) := by
        rintro ⟨d, hd', h⟩
        exact hd.1 d hd' ⟨hc.1.trans h.1.symm, hc.2.trans h.2.symm⟩
      have hsame := not_not.1 (ih.not.2 hnot)
      rw [hsame, hp]
      have h1 : X % 64 = c.1 % 64 ∧ Y % 32 = c.2 % 32 := ⟨hc.1.symm, hc.2.symm⟩
      simp [h1, hc]
    · have h1 : ¬ (X % 64 = c.1 % 64 ∧ Y % 32 = c.2 % 32) :=
        fun h => hc ⟨h.1.symm, h.2.symm⟩
      rw [hp] at ih
      simp only [h1, decide_false, Bool.xor_false] at ih
      rw [ih]
      simp [hc]

/-- The collision flag is set exactly when some toggled pixel was on before (R151, R155). -/
theorem hit_toggleCells (cells : List (Nat × Nat)) (acc : Vector PixelRow 32 × Bool)
    (hd : cells.Pairwise fun c d => ¬ SamePixel c d) :
    (toggleCells cells acc).2 = true ↔
      acc.2 = true ∨ ∃ c ∈ cells, pixel acc.1 c.1 c.2 = true := by
  induction cells generalizing acc with
  | nil => simp [toggleCells]
  | cons c cs ih =>
    rw [List.pairwise_cons] at hd
    have e : toggleCells (c :: cs) acc = toggleCells cs (toggle c.1 c.2 acc) := rfl
    have h2 : (toggle c.1 c.2 acc).2 = (acc.2 || pixel acc.1 c.1 c.2) := by
      simp [toggle, setPixel_collides]
    have hp : ∀ d ∈ cs, pixel (toggle c.1 c.2 acc).1 d.1 d.2 = pixel acc.1 d.1 d.2 := by
      intro d hd'
      have h1 : ¬ (d.1 % 64 = c.1 % 64 ∧ d.2 % 32 = c.2 % 32) :=
        fun h => hd.1 d hd' ⟨h.1.symm, h.2.symm⟩
      have := pixel_setPixel acc.1 c.1 c.2 d.1 d.2
      simpa [h1, toggle] using this
    rw [e, ih _ hd.2, h2]
    simp only [Bool.or_eq_true, List.mem_cons, exists_eq_or_imp, or_assoc]
    constructor
    · rintro (h | h | ⟨d, hm, h⟩)
      · exact .inl h
      · exact .inr (.inl h)
      · exact .inr (.inr ⟨d, hm, by rwa [← hp d hm]⟩)
    · rintro (h | h | ⟨d, hm, h⟩)
      · exact .inl h
      · exact .inr (.inl h)
      · exact .inr (.inr ⟨d, hm, by rwa [hp d hm]⟩)

end Sys2Proof.Machine
end

