-- ==== Sys2Proof/Laws/HostPort.lean ====
section
/-! SUPPORT. What the host's transactions do: the fields of RESET, the memory it leaves, LOAD by cases,
and the word that withFetchWord places. -/

namespace Sys2Proof.Machine

variable (s : State)

/-! ## RESET -/

@[simp] theorem State.resetEngine_v : s.resetEngine.v = Vector.replicate 16 0 := rfl
@[simp] theorem State.resetEngine_i : s.resetEngine.i = 0 := rfl
@[simp] theorem State.resetEngine_pc : s.resetEngine.pc = s.params.entry := rfl
@[simp] theorem State.resetEngine_sp : s.resetEngine.sp = 0 := rfl
@[simp] theorem State.resetEngine_stack : s.resetEngine.stack = Vector.replicate 16 0 := rfl
@[simp] theorem State.resetEngine_dt : s.resetEngine.dt = 0 := rfl
@[simp] theorem State.resetEngine_st : s.resetEngine.st = 0 := rfl
@[simp] theorem State.resetEngine_mem : s.resetEngine.mem = Memory.reloadFont s.mem := rfl
@[simp] theorem State.resetEngine_fb : s.resetEngine.fb = clearFb := rfl
@[simp] theorem State.resetEngine_keys : s.resetEngine.keys = s.keys := rfl
@[simp] theorem State.resetEngine_fault : s.resetEngine.fault = FaultReg.clear := rfl
@[simp] theorem State.resetEngine_prescale : s.resetEngine.prescale = 0 := rfl
@[simp] theorem State.resetEngine_params : s.resetEngine.params = s.params := rfl
@[simp] theorem State.resetEngine_draws : s.resetEngine.draws = s.draws := rfl

@[simp] theorem State.resetEngine_reg (r : Reg) : s.resetEngine.reg r = 0 := by
  simp [State.reg]

@[simp] theorem State.resetEngine_halted : s.resetEngine.halted = false := rfl

theorem Memory.lookup_reloadFont (m : List Host.Cell) (a : Nat) :
    Memory.lookup (Memory.reloadFont m) a = if a < 80 then none else Memory.lookup m a := by
  induction m with
  | nil => simp [Memory.reloadFont, Memory.lookup]
  | cons c cs ih =>
    simp only [Memory.reloadFont, List.filter_cons] at ih ⊢
    by_cases h : 80 ≤ c.1
    · by_cases e : c.1 = a
      · have ha : 80 ≤ a := e ▸ h
        simp [ha, e, Memory.lookup, show ¬ a < 80 by omega]
      · simp [h, e, Memory.lookup, ih]
    · by_cases e : c.1 = a
      · simp [h, ih, show a < 80 by omega]
      · simp [h, e, Memory.lookup, ih]

/-- RESET reloads the font and leaves every other byte (R240). -/
theorem State.readByte_resetEngine (a : Word) :
    s.resetEngine.readByte a =
      if h : a.toNat < 80 then s.params.font[a.toNat] else s.readByte a := by
  by_cases h : a.toNat < 80 <;>
    simp [State.readByte, Memory.read, Memory.lookup_reloadFont, Memory.blank, h]

theorem Memory.wf_reloadFont (font : Vector Byte 80) (m : List Host.Cell)
    (h : Memory.wf font m = true) : Memory.wf font (Memory.reloadFont m) = true :=
  Memory.wf_filter font _ m h

theorem State.resetWith_none (h : s.params.valid = true) :
    s.resetWith none = .next s.resetEngine := by
  simp [State.resetWith, h]

theorem State.resetWith_some (image : List Byte) (h : s.params.valid = true) :
    s.resetWith (some image) = s.resetEngine.load image := by
  simp [State.resetWith, h]

/-! ## LOAD -/

theorem State.load_of_fits (image : List Byte) (hv : s.params.valid = true) (h : image ≠ [])
    (hf : s.params.entry.toNat + image.length ≤ 0x1000) :
    s.load image = .next (s.writeBytes s.params.entry image) := by
  rw [State.load, if_neg (by simp [hv]), if_neg h, if_neg (by omega)]

/-- The one way LOAD answers a next state. -/
theorem State.load_next {t : State} {image : List Byte} (h : s.load image = .next t) :
    s.params.valid = true ∧ image ≠ [] ∧ s.params.entry.toNat + image.length ≤ 0x1000 ∧
      t = s.writeBytes s.params.entry image := by
  unfold State.load at h
  split at h
  · cases h
  · next hv =>
    split at h
    · cases h
    · next h0 =>
      split at h
      · cases h
      · next h1 =>
        injection h with h
        exact ⟨by simpa using hv, h0, by omega, h.symm⟩

/-! ## Key events -/

theorem State.getLsbD_press (k j : Key) :
    (s.press k).keys.getLsbD j.val = (decide (j = k) || s.keys.getLsbD j.val) := by
  have := j.isLt
  have := k.isLt
  by_cases h : k.val = j.val <;> simp [State.press, Fin.ext_iff, eq_comm, h]

theorem State.getLsbD_release (k j : Key) :
    (s.release k).keys.getLsbD j.val = (decide (j ≠ k) && s.keys.getLsbD j.val) := by
  have := j.isLt
  have := k.isLt
  by_cases h : k.val = j.val <;> simp [State.release, Fin.ext_iff, eq_comm, h]

/-! ## The word the next STEP fetches -/

theorem State.fetch_withFetchWord (w : Nat) (h : s.pc.toNat ≤ 0xFFE) :
    (s.withFetchWord 16 w).fetch = .ok (BitVec.ofNat 16 w) := by
  have h1 : (1 : Word).toNat = 1 := rfl
  have ha : outOfRange s.pc = false := by
    rw [← Bool.not_eq_true, outOfRange_iff]; omega
  have hb : outOfRange (s.pc + 1) = false := by
    rw [← Bool.not_eq_true, outOfRange_iff, BitVec.toNat_add]; omega
  have hne : s.pc ≠ s.pc + 1 := fun e => by
    have := congrArg BitVec.toNat e
    rw [BitVec.toNat_add] at this
    omega
  have e : s.withFetchWord 16 w = s.storeOpcode s.pc (BitVec.ofNat 16 (w % 2 ^ 16)) := by
    rw [State.withFetchWord, ha, hb]; rfl
  have hp : (s.withFetchWord 16 w).pc = s.pc := by rw [e, State.storeOpcode]; simp
  rw [State.fetch_of_inRange _ (by rw [hp]; exact h), hp, e, State.storeOpcode]
  simp only [State.writeBytes, State.readByte_writeByte, if_neg hne, if_true,
    opcodeOfBytes_bytesOfOpcode]
  congr 1
  apply BitVec.eq_of_toNat_eq
  simp

end Sys2Proof.Machine
end

