-- ==== Sys2Proof/Laws/PerInstr.lean ====
section
/-! SUPPORT. Statements about every instruction as syntax, one lemma per constructor.
Family EncodesRow: the word of an instruction matches the row of spec/30_encoding.md R80 that the
instruction is an instance of, by `op & mask == match`. -/

namespace Sys2Proof.Laws

/-- The word of an instruction matches its row of the opcode map. -/
def EncodesRow.Statement (i : Instr) : Prop := (rowOf i).matches (encode i) = true

/-- A form under the mask that keeps the class nibble. -/
theorem formNNN_and_class (c : BitVec 4) (nnn : BitVec 12) :
    formNNN c nnn &&& 0xF000 = c ++ (0 : BitVec 12) := by
  have h : (0xF000 : Word) = (0xF#4 ++ 0x000#12 : BitVec 16) := by decide
  have hc : c &&& 0xF#4 = c := BitVec.and_allOnes
  rw [h, formNNN, BitVec.and_append, hc]
  simp

theorem formXKK_and_class (c : BitVec 4) (x : Reg) (kk : Byte) :
    formXKK c x kk &&& 0xF000 = c ++ (0 : BitVec 12) := by
  rw [formXKK_assoc]
  exact formNNN_and_class c (regBits x ++ kk)

theorem formXYN_and_class (c : BitVec 4) (x y : Reg) (n : BitVec 4) :
    formXYN c x y n &&& 0xF000 = c ++ (0 : BitVec 12) := by
  rw [formXYN_eq_formXKK, formXKK_and_class]

/-- A form under the mask that keeps the class nibble and the low byte. -/
theorem formXKK_and_code (c : BitVec 4) (x : Reg) (kk : Byte) :
    formXKK c x kk &&& 0xF0FF = c ++ (0 : BitVec 4) ++ kk := by
  have h : (0xF0FF : Word) = (0xF#4 ++ 0x0#4 ++ 0xFF#8 : BitVec 16) := by decide
  have hc : c &&& 0xF#4 = c := BitVec.and_allOnes
  have hk : kk &&& 0xFF#8 = kk := BitVec.and_allOnes
  rw [h, formXKK, BitVec.and_append, BitVec.and_append, hc, hk]
  simp

/-- A form under the mask that keeps the class nibble and the low nibble. -/
theorem formXYN_and_code (c : BitVec 4) (x y : Reg) (n : BitVec 4) :
    formXYN c x y n &&& 0xF00F = c ++ (0 : BitVec 4) ++ (0 : BitVec 4) ++ n := by
  have h : (0xF00F : Word) = (0xF#4 ++ 0x0#4 ++ 0x0#4 ++ 0xF#4 : BitVec 16) := by decide
  have hc : c &&& 0xF#4 = c := BitVec.and_allOnes
  have hn : n &&& 0xF#4 = n := BitVec.and_allOnes
  rw [h, formXYN, BitVec.and_append, BitVec.and_append, BitVec.and_append, hc, hn]
  simp

namespace EncodesRow

theorem cls : Statement (.cls) := rfl

theorem ret : Statement (.ret) := rfl

theorem jp (nnn : BitVec 12) : Statement (.jp nnn) := by
  rw [Statement, OpcodeRow.matches, rowOf, encode, formNNN_and_class]
  rfl

theorem call (nnn : BitVec 12) : Statement (.call nnn) := by
  rw [Statement, OpcodeRow.matches, rowOf, encode, formNNN_and_class]
  rfl

theorem seImm (x : Reg) (kk : Byte) : Statement (.seImm x kk) := by
  rw [Statement, OpcodeRow.matches, rowOf, encode, formXKK_and_class]
  rfl

theorem sneImm (x : Reg) (kk : Byte) : Statement (.sneImm x kk) := by
  rw [Statement, OpcodeRow.matches, rowOf, encode, formXKK_and_class]
  rfl

theorem seReg (x y : Reg) : Statement (.seReg x y) := by
  rw [Statement, OpcodeRow.matches, rowOf, encode, formXYN_and_code]
  rfl

theorem sneReg (x y : Reg) : Statement (.sneReg x y) := by
  rw [Statement, OpcodeRow.matches, rowOf, encode, formXYN_and_code]
  rfl

theorem ldImm (x : Reg) (kk : Byte) : Statement (.ldImm x kk) := by
  rw [Statement, OpcodeRow.matches, rowOf, encode, formXKK_and_class]
  rfl

theorem addImm (x : Reg) (kk : Byte) : Statement (.addImm x kk) := by
  rw [Statement, OpcodeRow.matches, rowOf, encode, formXKK_and_class]
  rfl

theorem ldReg (x y : Reg) : Statement (.ldReg x y) := by
  rw [Statement, OpcodeRow.matches, rowOf, encode, formXYN_and_code]
  rfl

theorem orReg (x y : Reg) : Statement (.orReg x y) := by
  rw [Statement, OpcodeRow.matches, rowOf, encode, formXYN_and_code]
  rfl

theorem andReg (x y : Reg) : Statement (.andReg x y) := by
  rw [Statement, OpcodeRow.matches, rowOf, encode, formXYN_and_code]
  rfl

theorem xorReg (x y : Reg) : Statement (.xorReg x y) := by
  rw [Statement, OpcodeRow.matches, rowOf, encode, formXYN_and_code]
  rfl

theorem addReg (x y : Reg) : Statement (.addReg x y) := by
  rw [Statement, OpcodeRow.matches, rowOf, encode, formXYN_and_code]
  rfl

theorem sub (x y : Reg) : Statement (.sub x y) := by
  rw [Statement, OpcodeRow.matches, rowOf, encode, formXYN_and_code]
  rfl

theorem shr (x y : Reg) : Statement (.shr x y) := by
  rw [Statement, OpcodeRow.matches, rowOf, encode, formXYN_and_code]
  rfl

theorem subn (x y : Reg) : Statement (.subn x y) := by
  rw [Statement, OpcodeRow.matches, rowOf, encode, formXYN_and_code]
  rfl

theorem shl (x y : Reg) : Statement (.shl x y) := by
  rw [Statement, OpcodeRow.matches, rowOf, encode, formXYN_and_code]
  rfl

theorem ldI (nnn : BitVec 12) : Statement (.ldI nnn) := by
  rw [Statement, OpcodeRow.matches, rowOf, encode, formNNN_and_class]
  rfl

theorem jpV0 (nnn : BitVec 12) : Statement (.jpV0 nnn) := by
  rw [Statement, OpcodeRow.matches, rowOf, encode, formNNN_and_class]
  rfl

theorem rnd (x : Reg) (kk : Byte) : Statement (.rnd x kk) := by
  rw [Statement, OpcodeRow.matches, rowOf, encode, formXKK_and_class]
  rfl

theorem drw (x y : Reg) (n : Nat) : Statement (.drw x y n) := by
  rw [Statement, OpcodeRow.matches, rowOf, encode, formXYN_and_class]
  rfl

theorem skp (x : Reg) : Statement (.skp x) := by
  rw [Statement, OpcodeRow.matches, rowOf, encode, formXKK_and_code]
  rfl

theorem sknp (x : Reg) : Statement (.sknp x) := by
  rw [Statement, OpcodeRow.matches, rowOf, encode, formXKK_and_code]
  rfl

theorem ldVxDt (x : Reg) : Statement (.ldVxDt x) := by
  rw [Statement, OpcodeRow.matches, rowOf, encode, formXKK_and_code]
  rfl

theorem ldDtVx (x : Reg) : Statement (.ldDtVx x) := by
  rw [Statement, OpcodeRow.matches, rowOf, encode, formXKK_and_code]
  rfl

theorem ldVxK (x : Reg) : Statement (.ldVxK x) := by
  rw [Statement, OpcodeRow.matches, rowOf, encode, formXKK_and_code]
  rfl

theorem ldStVx (x : Reg) : Statement (.ldStVx x) := by
  rw [Statement, OpcodeRow.matches, rowOf, encode, formXKK_and_code]
  rfl

theorem addI (x : Reg) : Statement (.addI x) := by
  rw [Statement, OpcodeRow.matches, rowOf, encode, formXKK_and_code]
  rfl

theorem ldF (x : Reg) : Statement (.ldF x) := by
  rw [Statement, OpcodeRow.matches, rowOf, encode, formXKK_and_code]
  rfl

theorem ldB (x : Reg) : Statement (.ldB x) := by
  rw [Statement, OpcodeRow.matches, rowOf, encode, formXKK_and_code]
  rfl

theorem ldMemVx (x : Reg) : Statement (.ldMemVx x) := by
  rw [Statement, OpcodeRow.matches, rowOf, encode, formXKK_and_code]
  rfl

theorem ldVxMem (x : Reg) : Statement (.ldVxMem x) := by
  rw [Statement, OpcodeRow.matches, rowOf, encode, formXKK_and_code]
  rfl

end EncodesRow

end Sys2Proof.Laws
end

