-- ==== Sys2Proof/Tests/Slice0.lean ====
section
/-! SUPPORT. Tests, and a witness for the hypotheses of each statement. Expected results are the spec's:
a name in brackets is a vector of spec/95_test_vectors.md; words are written from the patterns of
spec/30_encoding.md R74 and R80. -/

namespace Sys2Proof.Tests

open Sys2Proof Sys2Proof.Machine

/-! ## Helpers -/

/-- Whether an outcome is a next state of which `p` holds. -/
def gives (o : Host.Outcome State Fault Refusal) (p : State → Bool) : Bool :=
  match o with
  | .next t => p t
  | .fault _ => false
  | .refused _ => false

/-- One STEP of `s` with the word `w` placed where it fetches. -/
def ran (s : State) (w : Nat) (p : State → Bool) : Bool := gives (step (s.withFetchWord 16 w)) p

/-- The state after reset with some registers set. -/
def withRegs (rs : List (Reg × Byte)) : State :=
  rs.foldl (fun s r => s.setReg r.1 r.2) State.reset

/-- The state after reset with the address A of the next instruction. -/
def atPc (a : Word) : State := State.reset.setPc a

/-- The FAULT register reads so. -/
def faulted (t : State) (c : FaultCode) (ipc op a : Word) : Bool :=
  decide (t.fault = { code := c, ipc := ipc, opcode := op, addr := a })

/-- The bytes of MEM from an address. -/
def bytesAt (t : State) (a : Word) (n : Nat) : List Nat := (t.readBytes a n).map BitVec.toNat

/-- The pixels that are on, row by row. -/
def pixelsOn (t : State) : List (Nat × Nat) :=
  (List.range 32).flatMap fun Y =>
    ((List.range 64).filter fun X => pixel t.fb X Y).map fun X => (X, Y)

/-! ## WellFormed: the one check refuses an ill-formed term -/

theorem test_drw_of_16_rows_is_ill_formed : (Instr.drw 0 0 16).wellFormed = false := by decide

/-! ## Decode: the word of each constructor, written from its pattern -/

theorem test_decode_flow :
    decode 0b0000000011101110 = .ok .ret ∧ decode 0b0001001000101000 = .ok (.jp 0x228) ∧
    decode 0b0010101011110010 = .ok (.call 0xAF2) ∧ decode 0b1011001100000000 = .ok (.jpV0 0x300) ∧
    decode 0b0011001100011111 = .ok (.seImm 3 0x1F) ∧
    decode 0b0100000000000001 = .ok (.sneImm 0 0x01) ∧
    decode 0b0101000100100000 = .ok (.seReg 1 2) ∧ decode 0b1001000100100000 = .ok (.sneReg 1 2) := by
  decide

theorem test_decode_alu :
    decode 0b0110101001000010 = .ok (.ldImm 10 0x42) ∧
    decode 0b0111000000000001 = .ok (.addImm 0 0x01) ∧ decode 0b1000000100100000 = .ok (.ldReg 1 2) ∧
    decode 0b1000000100100001 = .ok (.orReg 1 2) ∧ decode 0b1000000100100010 = .ok (.andReg 1 2) ∧
    decode 0b1000000100100011 = .ok (.xorReg 1 2) ∧ decode 0b1000000000010100 = .ok (.addReg 0 1) ∧
    decode 0b1000000000010101 = .ok (.sub 0 1) ∧ decode 0b1000010101100110 = .ok (.shr 5 6) ∧
    decode 0b1000000100100111 = .ok (.subn 1 2) ∧ decode 0b1000000111111110 = .ok (.shl 1 15) ∧
    decode 0b1100001100001111 = .ok (.rnd 3 0x0F) := by
  decide

theorem test_decode_index_and_display :
    decode 0b1010010000100000 = .ok (.ldI 0x420) ∧ decode 0b1111001000011110 = .ok (.addI 2) ∧
    decode 0b1111001100101001 = .ok (.ldF 3) ∧ decode 0b1111000000110011 = .ok (.ldB 0) ∧
    decode 0b1111001001010101 = .ok (.ldMemVx 2) ∧ decode 0b1111001001100101 = .ok (.ldVxMem 2) ∧
    decode 0b0000000011100000 = .ok .cls ∧ decode 0b1101000000010010 = .ok (.drw 0 1 2) := by
  decide

theorem test_decode_keys_and_timers :
    decode 0b1110010010011110 = .ok (.skp 4) ∧ decode 0b1110010010100001 = .ok (.sknp 4) ∧
    decode 0b1111010100000111 = .ok (.ldVxDt 5) ∧ decode 0b1111010100010101 = .ok (.ldDtVx 5) ∧
    decode 0b1111000000001010 = .ok (.ldVxK 0) ∧ decode 0b1111000100011000 = .ok (.ldStVx 1) := by
  decide

/-- [E6, E7, E12] and one word of each other unmatched function code of class 8. -/
theorem test_unmatched_words_are_rejected_by_class :
    decode 0x0123 = .error .class0 ∧ decode 0x00E1 = .error .class0 ∧
    decode 0x5121 = .error .class5 ∧ decode 0x912F = .error .class9 ∧
    decode 0xE19F = .error .classE ∧ decode 0xF1FF = .error .classF ∧
    ([0x8, 0x9, 0xA, 0xB, 0xC, 0xD, 0xF].all fun n =>
      decode (BitVec.ofNat 16 (0x8120 + n)) == .error .class8) = true := by
  decide

theorem test_table_words :
    decodeTableWord 16 0x2AF2 = some (.call 0xAF2) ∧ decodeTableWord 16 0x0000 = none ∧
    decodeTableWord 16 0x181FE = some (.shl 1 15) := by decide

/-! ## Fetch and unmatched opcodes -/

/-- [E2] -/
theorem test_odd_pc_fetches : ran (atPc 0x201) 0x607F (fun t => t.reg 0 == 0x7F && t.pc == 0x203) := by
  decide

/-- [E4, E5] -/
theorem test_fetch_beyond_memory_faults :
    gives (step (atPc 0xFFF)) (fun t => faulted t .memRangeFetch 0xFFF 0 0x1000 && t.pc == 0xFFF) ∧
    gives (step (atPc 0x1000)) (fun t => faulted t .memRangeFetch 0x1000 0 0x1000) := by decide

/-- [E6] -/
theorem test_unmatched_opcode_is_a_no_op :
    ran (atPc 0x300) 0x0123 (fun t => decide (t = { (atPc 0x302) with mem := t.mem })) := by decide

/-- The machine with STRICT = true. -/
def strictAt (a : Word) : State := { atPc a with params := { defaultParams with strict := true } }

/-- [E9] -/
theorem test_unmatched_opcode_faults_when_strict :
    ran (strictAt 0x300) 0x5121
      (fun t => faulted t .unknownOpcode 0x300 0x5121 0 && t.pc == 0x300) := by decide

/-! ## Control transfer -/

/-- [B7] -/
theorem test_ret_from_a_full_stack :
    ran { State.reset with sp := 16, stack := State.reset.stack.set 0 0x302 } 0x00EE
      (fun t => t.pc == 0x302 && t.sp == 15 && t.stack[0] == 0x302) := by decide

/-- [B5] -/
theorem test_ret_on_an_empty_stack_faults :
    ran (atPc 0x400) 0x00EE
      (fun t => faulted t .stackUnderflow 0x400 0x00EE 0 && t.pc == 0x400 && t.sp == 0) := by decide

/-- [B6] -/
theorem test_sixteenth_call_uses_slot_0 :
    ran { atPc 0x300 with sp := 15 } 0x2500
      (fun t => t.sp == 16 && t.stack[0] == 0x302 && t.pc == 0x500) := by decide

/-- [B8] -/
theorem test_seventeenth_call_faults :
    ran { atPc 0x500 with sp := 16 } 0x2600
      (fun t => faulted t .stackOverflow 0x500 0x2600 0 && t.pc == 0x500 && t.sp == 16 &&
        t.stack == State.reset.stack) := by decide

/-- [B1] -/
theorem test_jp : ran State.reset 0x1228 (fun t => t.pc == 0x228) := by decide

/-- [B12, B11] -/
theorem test_jp_v0 :
    ran (withRegs [(0, 0x10), (5, 0x77)]) 0xB520 (fun t => t.pc == 0x530) ∧
    ran (withRegs [(0, 0xFF)]) 0xBF01 (fun t => t.pc == 0x1000) := by decide

/-- [B13, B14] -/
theorem test_se_immediate :
    ran (withRegs [(3, 0x1F)]) 0x331F (fun t => t.pc == 0x204) ∧
    ran (withRegs [(3, 0x1E)]) 0x331F (fun t => t.pc == 0x202) := by decide

/-- [B15, B16] -/
theorem test_sne_immediate :
    ran State.reset 0x4000 (fun t => t.pc == 0x202) ∧
    ran (withRegs [(0, 0x01)]) 0x4000 (fun t => t.pc == 0x204) := by decide

/-- [B17], and R106 for unequal registers. -/
theorem test_se_registers :
    ran (withRegs [(1, 0x40), (2, 0x40)]) 0x5120 (fun t => t.pc == 0x204) ∧
    ran (withRegs [(1, 0x40), (2, 0x41)]) 0x5120 (fun t => t.pc == 0x202) := by decide

/-- [B19, B20] -/
theorem test_sne_registers :
    ran (withRegs [(1, 0x40), (2, 0x41)]) 0x9120 (fun t => t.pc == 0x204) ∧
    ran (withRegs [(1, 0x40)]) 0x9110 (fun t => t.pc == 0x202) := by decide

/-! ## Register loads, ALU and random -/

/-- [A1, A2] -/
theorem test_ld_immediate :
    ran State.reset 0x6A42 (fun t => t.reg 10 == 0x42) ∧
    ran State.reset 0x6F07 (fun t => t.reg VF == 0x07) := by decide

/-- [A3] -/
theorem test_add_immediate_wraps_without_carry :
    ran (withRegs [(0, 0xFF), (VF, 0x77)]) 0x7001 (fun t => t.reg 0 == 0 && t.reg VF == 0x77) := by
  decide

/-- [A5] -/
theorem test_ld_register : ran (withRegs [(2, 0x99)]) 0x8120 (fun t => t.reg 1 == 0x99) := by decide

/-- [A6] -/
theorem test_or : ran (withRegs [(1, 0x0F), (2, 0xF0), (VF, 0x55)]) 0x8121
    (fun t => t.reg 1 == 0xFF && t.reg VF == 0x55) := by decide

/-- [A7] -/
theorem test_and : ran (withRegs [(1, 0x3C), (2, 0x0F), (VF, 0x55)]) 0x8122
    (fun t => t.reg 1 == 0x0C && t.reg VF == 0x55) := by decide

/-- [A8] -/
theorem test_xor : ran (withRegs [(1, 0x3C), (2, 0x0F), (VF, 0x55)]) 0x8123
    (fun t => t.reg 1 == 0x33 && t.reg VF == 0x55) := by decide

/-- [A10, A40] -/
theorem test_add_registers :
    ran (withRegs [(0, 0xAC), (1, 0xDC)]) 0x8014 (fun t => t.reg 0 == 0x88 && t.reg VF == 1) ∧
    ran (withRegs [(VF, 0xFF), (1, 0x02)]) 0x8F14 (fun t => t.reg VF == 0x01) := by decide

/-- [A17, A43] -/
theorem test_sub :
    ran (withRegs [(0, 0x42), (1, 0x42)]) 0x8015 (fun t => t.reg 0 == 0 && t.reg VF == 0) ∧
    ran (withRegs [(VF, 0x05), (1, 0x03)]) 0x8F15 (fun t => t.reg VF == 0xFE) := by decide

/-- [A22, A46] -/
theorem test_shr :
    ran (withRegs [(5, 0xFE), (6, 0x99)]) 0x8566
      (fun t => t.reg 5 == 0x7F && t.reg VF == 0 && t.reg 6 == 0x99) ∧
    ran (withRegs [(VF, 0x03)]) 0x8F06 (fun t => t.reg VF == 0) := by decide

/-- [A24, A48] -/
theorem test_subn :
    ran (withRegs [(1, 0x05), (2, 0x03)]) 0x8127 (fun t => t.reg 1 == 0xFE && t.reg VF == 0) ∧
    ran (withRegs [(1, 0x03), (VF, 0x05)]) 0x81F7 (fun t => t.reg VF == 1 && t.reg 1 == 0xFE) := by
  decide

/-- [A26, A49] -/
theorem test_shl :
    ran (withRegs [(3, 0xC1)]) 0x830E (fun t => t.reg 3 == 0x82 && t.reg VF == 1) ∧
    ran (withRegs [(VF, 0x81)]) 0x8F0E (fun t => t.reg VF == 0x02) := by decide

/-- [A32] -/
theorem test_rnd_masks_the_draw (s : State) :
    ∃ t, exec (.rnd 3 0xF0) s = .next t ∧ t.reg 3 &&& 0x0F = 0 :=
  ⟨_, rfl, by simp [BitVec.and_assoc]⟩

/-! ## Index register and memory -/

/-- [M2] -/
theorem test_ld_i : ran State.reset 0xAFFF (fun t => t.i == 0xFFF) := by decide

/-- [M3, M4] -/
theorem test_add_i :
    ran ((withRegs [(2, 0x02), (VF, 0x33)]).setI 0x0FFF) 0xF21E
      (fun t => t.i == 0x1001 && t.reg VF == 0x33) ∧
    ran ((withRegs [(2, 0x01)]).setI 0xFFFF) 0xF21E (fun t => t.i == 0) := by decide

/-- [M7] -/
theorem test_ld_f_uses_all_8_bits : ran (withRegs [(3, 0xFF)]) 0xF329 (fun t => t.i == 0x4FB) := by
  decide

/-- [M12] -/
theorem test_bcd_at_the_top_of_memory :
    ran ((withRegs [(0, 0xFF)]).setI 0xFFD) 0xF033
      (fun t => bytesAt t 0xFFD 3 == [2, 5, 5] && t.i == 0xFFD) := by decide

/-- [M13] -/
theorem test_bcd_beyond_memory_writes_nothing :
    ran (((withRegs [(0, 0xFF)]).setI 0xFFE).writeByte 0xFFE 0xAA) 0xF033
      (fun t => faulted t .memRangeWrite 0x200 0xF033 0x1000 && bytesAt t 0xFFE 1 == [0xAA] &&
        t.pc == 0x200) := by decide

/-- [M14] -/
theorem test_store_block :
    ran ((withRegs [(0, 0x11), (1, 0x22), (2, 0x33)]).setI 0x300) 0xF255
      (fun t => bytesAt t 0x300 3 == [0x11, 0x22, 0x33] && t.i == 0x302) := by decide

/-- [M17] -/
theorem test_store_block_beyond_memory_writes_nothing :
    ran (State.reset.setI 0xFF1) 0xFF55
      (fun t => faulted t .memRangeWrite 0x200 0xFF55 0x1000 && t.i == 0xFF1 &&
        (t.mem.all fun c => c.1 == 0x200 || c.1 == 0x201)) := by decide

/-- [M18] -/
theorem test_load_block :
    ran ((State.reset.setI 0x300).writeBytes 0x300 [2, 5, 4]) 0xF265
      (fun t => t.reg 0 == 2 && t.reg 1 == 5 && t.reg 2 == 4 && t.i == 0x302) := by decide

/-- [M22] -/
theorem test_load_block_beyond_memory_reads_nothing :
    ran ((withRegs [(0, 7)]).setI 0xFFE) 0xF265
      (fun t => faulted t .memRangeRead 0x200 0xF265 0x1000 && t.reg 0 == 7) := by decide

/-! ## Display -/

/-- A framebuffer with the listed pixels on. -/
def litAt (ps : List (Nat × Nat)) : Vector PixelRow 32 :=
  ps.foldl (fun fb p => (setPixel fb p.1 p.2).1) clearFb

/-- [D1] -/
theorem test_cls : ran ((withRegs [(VF, 0x44)]).setFb (litAt [(3, 4), (63, 31)])) 0x00E0
    (fun t => t.fb == clearFb && t.reg VF == 0x44) := by decide

/-- [D2] -/
theorem test_drw_wraps :
    ran ((((withRegs [(0, 0x3E), (1, 0x1F)]).setI 0x20E)).writeBytes 0x20E [0xC0, 0x81]) 0xD012
      (fun t => pixelsOn t == [(5, 0), (62, 0), (62, 31), (63, 31)] && t.reg VF == 0 &&
        t.getPixel (64 + 5) (32 + 0) == 1) := by decide +kernel

/-- [D15] -/
theorem test_drw_collides :
    ran ((((State.reset.setI 0x300).writeByte 0x300 0xFF)).setFb (litAt [(7, 0)])) 0xD011
      (fun t => pixelsOn t == [(0, 0), (1, 0), (2, 0), (3, 0), (4, 0), (5, 0), (6, 0)] &&
        t.reg VF == 1) := by decide +kernel

/-- [D14]: the glyph of "A", which depends on FONT. -/
theorem test_glyph_a :
    ran (State.reset.setI 0x032) 0xD125
      (fun t => pixelsOn t == [(0, 0), (1, 0), (2, 0), (3, 0), (0, 1), (3, 1), (0, 2), (1, 2),
        (2, 2), (3, 2), (0, 3), (3, 3), (0, 4), (3, 4)]) := by decide +kernel

/-! ## Keys and timers -/

/-- The state after reset with some keys held. -/
def holding (ks : List Key) (rs : List (Reg × Byte)) : State := ks.foldl State.press (withRegs rs)

/-- [K1, K5] -/
theorem test_skp :
    ran (holding [12] [(4, 0x0C)]) 0xE49E (fun t => t.pc == 0x204) ∧
    ran (holding [12] [(4, 0x1C)]) 0xE49E (fun t => t.pc == 0x202) := by decide

/-- [K4, K6] -/
theorem test_sknp :
    ran (holding [12] [(4, 0x0C)]) 0xE4A1 (fun t => t.pc == 0x202) ∧
    ran (holding [12] [(4, 0x1C)]) 0xE4A1 (fun t => t.pc == 0x204) := by decide

/-- [K7, K8] -/
theorem test_key_wait :
    ran State.reset 0xF00A (fun t => decide (t = State.reset.withFetchWord 16 0xF00A)) ∧
    ran (holding [7] []) 0xF00A (fun t => t.reg 0 == 7 && t.pc == 0x202) := by decide

/-- [K9] -/
theorem test_key_wait_chooses_a_held_key (d : Nat) :
    chooseKey d 2 [9] = 2 ∨ chooseKey d 2 [9] = 9 := by
  have h := chooseKey_mem d 2 [9]
  simpa using h

/-- [K12] -/
theorem test_ld_vx_dt : ran (State.reset.setDt 0x3C) 0xF507 (fun t => t.reg 5 == 0x3C) := by decide

/-- [K13] -/
theorem test_ld_dt_vx : ran (withRegs [(5, 0x3C)]) 0xF515 (fun t => t.dt == 0x3C) := by decide

/-- [K14] -/
theorem test_ld_st_vx : ran (withRegs [(1, 0x02)]) 0xF118 (fun t => t.st == 0x02 && t.sound) := by
  decide

/-- [K16, K18] -/
theorem test_tick :
    (((State.reset.setDt 5).setSt 2).tick.dt = 4 ∧ ((State.reset.setDt 5).setSt 2).tick.st = 1) ∧
    ((State.reset.setDt 1).tick.dt = 0 ∧ (State.reset.setDt 1).tick.st = 0) := by decide

/-- The machine with TIMER_MODE = EVERY_N, TIMER_N = 2, DT = 3 and a value of PRESCALE. -/
def everySecond (prescale : Nat) : State :=
  { State.reset with dt := 3, prescale := prescale,
                     params := { defaultParams with timerMode := .everyN, timerN := 2 } }

/-- [K20, K21] -/
theorem test_every_second_step_ticks :
    ran (everySecond 0) 0x6000 (fun t => t.prescale == 1 && t.dt == 3) ∧
    ran (everySecond 1) 0x6000 (fun t => t.prescale == 0 && t.dt == 2) := by decide

/-- [K23] -/
theorem test_faulting_step_does_not_count :
    ran (everySecond 1) 0x00EE
      (fun t => faulted t .stackUnderflow 0x200 0x00EE 0 && t.prescale == 1 && t.dt == 3) := by decide

/-! ## Faults, halt, reset and load -/

/-- A halted engine. -/
def haltedState : State :=
  { atPc 0x500 with dt := 3,
                    fault := { code := .stackOverflow, ipc := 0x500, opcode := 0x2600, addr := 0 } }

/-- [X1, X2, X3] -/
theorem test_halted_engine :
    gives (step haltedState) (fun t => decide (t = haltedState)) ∧
    gives (transact .tick haltedState) (fun t => t.dt == 2 && t.fault == haltedState.fault) ∧
    gives (transact (.press 4) haltedState) (fun t => t.keys == 0x0010) := by decide

/-- [X4] -/
theorem test_reset_with_an_image :
    gives (transact (.reset (some [0x00, 0xE0]))
        (((haltedState.press 4).setReg 3 9).writeByte 0x600 0x77))
      (fun t => decide (t.fault = FaultReg.clear) && t.reg 3 == 0 && t.pc == 0x200 &&
        bytesAt t 0x200 2 == [0x00, 0xE0] && bytesAt t 0x600 1 == [0x77] && t.keys == 0x0010 &&
        bytesAt t 0x04B 5 == [0xF0, 0x80, 0xF0, 0x80, 0x80]) := by decide

/-- [X6, X7] -/
theorem test_load_refuses (s : State) (image : List Byte) (hp : s.params = defaultParams)
    (hl : image.length = 0xE01) :
    s.load image = .refused .loadTooLarge ∧ s.load [] = .refused .loadEmpty := by
  have hv : ¬ s.params.valid = false := by rw [hp]; decide
  have he : s.params.entry.toNat = 0x200 := by rw [hp]; rfl
  constructor
  · rw [State.load, if_neg hv, if_neg (by rintro rfl; simp at hl), if_pos (by omega)]
  · rw [State.load, if_neg hv, if_pos rfl]

/-! ## Witnesses: a concrete state and operands that meet the hypotheses of each statement, at the
boundary of each clause -/

theorem witness_DecodeOfEncode : (Instr.drw 15 15 15).wellFormed = true := by decide

theorem witness_EncodeOfDecode : decode 0x8AB6 = .ok (.shr 10 11) := by decide

theorem witness_DecoderSelectsTheMatchingRow :
    decode 0xDFFF = .ok (.drw 15 15 15) ∧ decode 0x800F = .error .class8 := by decide

/-- A running engine at the last address a fetch can start from, with a word there. -/
def atTop (w : Nat) : State := (atPc 0xFFE).withFetchWord 16 w

theorem witness_StepRunsTheDecodedInstruction :
    (atTop 0x1200).halted = false ∧ (atTop 0x1200).pc.toNat ≤ 0xFFE ∧
    decode (atTop 0x1200).opcodeAtPc = .ok (.jp 0x200) := by decide

theorem witness_FetchReadsTwoBytesBigEndian :
    (atTop 0x1200).pc.toNat ≤ 0xFFE ∧
    ((atPc 0xFFF).halted = false ∧ 0xFFE < (atPc 0xFFF).pc.toNat) ∧
    ((atPc 0x1000).halted = false ∧ 0xFFE < (atPc 0x1000).pc.toNat) := by decide

theorem witness_UnmatchedOpcodeIsNoOpOrFault :
    ((atTop 0x0000).halted = false ∧ (atTop 0x0000).pc.toNat ≤ 0xFFE ∧
      decode (atTop 0x0000).opcodeAtPc = .error .class0 ∧ (atTop 0x0000).params.strict = false) ∧
    (((strictAt 0xFFE).withFetchWord 16 0xFFFF).halted = false ∧
      ((strictAt 0xFFE).withFetchWord 16 0xFFFF).pc.toNat ≤ 0xFFE ∧
      decode ((strictAt 0xFFE).withFetchWord 16 0xFFFF).opcodeAtPc = .error .classF ∧
      ((strictAt 0xFFE).withFetchWord 16 0xFFFF).params.strict = true) := by decide

theorem witness_HaltedEngineWaitsForReset :
    haltedState.halted = true ∧ haltedState.params.timerMode = .free ∧
    ∃ t, transact (.reset none) haltedState = .next t ∧ t.fault ≠ haltedState.fault :=
  ⟨rfl, rfl, _, rfl, by decide⟩

/-- The check of a decoded instruction fails. -/
theorem faultDue_of_exec {s : State} {c : FaultCode} {op a : Word} (i : Instr)
    (hp : s.pc.toNat ≤ 0xFFE) (ho : s.opcodeAtPc = op) (hd : decode op = .ok i)
    (h : ExecFaultDue i s c a) : FaultDue s c op a := by
  unfold FaultDue
  rw [if_neg (by omega), hd]
  exact ⟨ho.symm, h⟩

/-- One state for each fault. -/
theorem witness_StepFaultsExactlyWhenDue :
    ((atPc 0xFFF).halted = false ∧ FaultDue (atPc 0xFFF) .memRangeFetch 0 0x1000) ∧
    FaultDue ((strictAt 0x300).withFetchWord 16 0x5121) .unknownOpcode 0x5121 0 ∧
    FaultDue ((atPc 0x400).withFetchWord 16 0x00EE) .stackUnderflow 0x00EE 0 ∧
    FaultDue (({ atPc 0x500 with sp := 16 } : State).withFetchWord 16 0x2600) .stackOverflow 0x2600 0 ∧
    FaultDue ((State.reset.setI 0xFFF).withFetchWord 16 0xD012) .memRangeRead 0xD012 0x1000 ∧
    FaultDue ((State.reset.setI 0x1001).withFetchWord 16 0xF065) .memRangeRead 0xF065 0x1001 ∧
    FaultDue ((State.reset.setI 0xFFE).withFetchWord 16 0xF033) .memRangeWrite 0xF033 0x1000 ∧
    FaultDue ((State.reset.setI 0xFF1).withFetchWord 16 0xFF55) .memRangeWrite 0xFF55 0x1000 := by
  refine ⟨⟨by decide, ?_⟩, ?_, ?_, ?_, ?_, ?_, ?_, ?_⟩
  · unfold FaultDue; rw [if_pos (by decide)]; decide
  · unfold FaultDue
    rw [if_neg (by decide), show decode 0x5121 = .error .class5 by decide]
    exact ⟨by decide, by decide, rfl, rfl⟩
  · exact faultDue_of_exec .ret (by decide) (by decide) (by decide) ⟨by decide, rfl, rfl⟩
  · exact faultDue_of_exec (.call 0x600) (by decide) (by decide) (by decide) ⟨by decide, rfl, rfl⟩
  · exact faultDue_of_exec (.drw 0 1 2) (by decide) (by decide) (by decide) ⟨rfl, 1, by decide⟩
  · exact faultDue_of_exec (.ldVxMem 0) (by decide) (by decide) (by decide) ⟨rfl, 0, by decide⟩
  · exact faultDue_of_exec (.ldB 0) (by decide) (by decide) (by decide) ⟨rfl, 2, by decide⟩
  · exact faultDue_of_exec (.ldMemVx 15) (by decide) (by decide) (by decide) ⟨rfl, 15, by decide⟩

/-- A state that owes no fault. -/
theorem witness_StepFaultsExactlyWhenDue_none :
    ¬ ∃ c op a, FaultDue (State.reset.withFetchWord 16 0x1200) c op a := by
  rintro ⟨c, op, a, h⟩
  unfold FaultDue at h
  rw [if_neg (by decide), show (State.reset.withFetchWord 16 0x1200).opcodeAtPc = 0x1200 by decide]
    at h
  obtain ⟨rfl, h⟩ := h
  rw [show decode 0x1200 = .ok (.jp 0x200) by decide] at h
  exact h

/-- The four clauses: a fault, FREE mode, EVERY_N before and at the TIMER_N-th STEP. -/
theorem witness_ExecutedStepsAdvancePrescale :
    (∃ t, exec .ret ((everySecond 1).withFetchWord 16 0x00EE).advancePc = .next t ∧
      t.halted = true) ∧
    (∃ t, exec (.ldImm 0 0) (State.reset.withFetchWord 16 0x6000).advancePc = .next t ∧
      t.halted = false ∧ State.reset.params.timerMode = .free) ∧
    (∃ t, exec (.ldImm 0 0) ((everySecond 0).withFetchWord 16 0x6000).advancePc = .next t ∧
      t.halted = false ∧ (everySecond 0).prescale + 1 ≠ (everySecond 0).params.timerN) ∧
    (∃ t, exec (.ldImm 0 0) ((everySecond 1).withFetchWord 16 0x6000).advancePc = .next t ∧
      t.halted = false ∧ (everySecond 1).prescale + 1 = (everySecond 1).params.timerN) :=
  ⟨⟨_, rfl, by decide⟩, ⟨_, rfl, by decide⟩, ⟨_, rfl, by decide⟩, ⟨_, rfl, by decide⟩⟩

theorem witness_TickCountsBothTimersDown : haltedState.params.timerMode = .free := by decide

/-- Both clauses: an instruction that completes and one that faults. -/
theorem witness_InstructionsWriteOnlyWhatTheMatrixSays :
    State.reset.halted = false ∧
    (∃ t, exec (.shl 15 15) State.reset = .next t ∧ t.halted = false) ∧
    (∃ t, exec .ret State.reset = .next t ∧ t.halted = true) :=
  ⟨rfl, ⟨_, rfl, by decide⟩, ⟨_, rfl, by decide⟩⟩

theorem witness_NoInstructionReadsTheSoundTimer :
    (∃ t, exec (.ldVxDt 15) State.reset = .next t ∧ ∀ x, Instr.ldVxDt 15 ≠ .ldStVx x) ∧
    (∃ t, exec (.ldStVx 15) State.reset = .next t) :=
  ⟨⟨_, rfl, by simp⟩, ⟨_, rfl⟩⟩

theorem witness_OnlyKeyInstructionsReadKeys :
    (∀ x, Instr.cls ≠ .skp x) ∧ (∀ x, Instr.cls ≠ .sknp x) ∧ (∀ x, Instr.cls ≠ .ldVxK x) ∧
    ∃ t, exec .cls State.reset = .next t :=
  ⟨by simp, by simp, by simp, _, rfl⟩

/-- Parameters at the end of their ranges. -/
def edgeParams : Params :=
  { entry := 0xFFE, strict := true, timerMode := .everyN, timerN := 1, font := defaultFont }

theorem witness_ResetMeetsTheInvariant : edgeParams.valid = true := by decide

theorem witness_StepKeepsTheInvariant :
    Inv (State.reset.withFetchWord 16 0x00EE) ∧
    ∃ t, step (State.reset.withFetchWord 16 0x00EE) = .next t :=
  ⟨by constructor <;> decide, _, rfl⟩

theorem witness_TransactionsKeepTheInvariant :
    Inv haltedState ∧ (∃ t, transact .step haltedState = .next t) ∧
    (∃ t, transact .tick haltedState = .next t) ∧
    (∃ t, transact (.reset none) haltedState = .next t) ∧
    (∃ t, transact (.reset (some [0x12, 0x00])) haltedState = .next t) ∧
    (∃ t, transact (.load [0x12, 0x00]) haltedState = .next t) ∧
    (∃ t, transact (.press 15) haltedState = .next t) ∧
    (∃ t, transact (.release 15) haltedState = .next t) :=
  ⟨by constructor <;> decide, ⟨_, rfl⟩, ⟨_, rfl⟩, ⟨_, rfl⟩, ⟨_, rfl⟩, ⟨_, rfl⟩, ⟨_, rfl⟩, ⟨_, rfl⟩⟩

theorem witness_ReachableStatesMeetTheInvariant : ∃ s, Reachable edgeParams s :=
  ⟨_, .transact .step _ _ (.boot [0x1F, 0xFE] _ rfl) rfl⟩

theorem witness_CanonicalMemoriesAreEqualData :
    Memory.wf defaultFont [(0, 0), (0xFFF, 0xFF)] = true ∧
    ∀ a, (Memory.lookup [(0, 0), (0xFFF, 0xFF)] a).or (Memory.blank defaultFont a) =
      (Memory.lookup [(0, 0), (0xFFF, 0xFF)] a).or (Memory.blank defaultFont a) :=
  ⟨by decide, fun _ => rfl⟩

theorem witness_StoredBytesAreFetchedNext :
    ((atPc 0xFFE).setI 0xFFE).i = ((atPc 0xFFE).setI 0xFFE).pc ∧ 1 ≤ (1 : Reg).val ∧
    ((atPc 0xFFE).setI 0xFFE).i.toNat + (1 : Reg).val ≤ 0xFFF := by decide

theorem witness_CallPushesTheReturnAddress :
    ({ State.reset with sp := 15 } : State).sp ≠ 16 ∧
    ({ State.reset with sp := 16 } : State).sp = 16 := by decide

theorem witness_ReturnPopsTheStack :
    ({ State.reset with sp := 16 } : State).sp ≠ 0 ∧ State.reset.sp = 0 := by decide

theorem witness_ReturnUndoesCall :
    ({ State.reset with sp := 15 } : State).sp.toNat < 16 ∧
    ∃ t, exec (.call 0xFFF) { State.reset with sp := 15 } = .next t ∧ t.sp = 16 :=
  ⟨by decide, _, rfl, by decide⟩

/-- The flags of the two subtractions on equal and on unequal operands. -/
theorem witness_SubtractionsSetNotBorrowFirst :
    (0 : Byte) = (if (State.reset.reg 0).toNat < (State.reset.reg 1).toNat then 1 else 0) ∧
    (1 : Byte) = (if ((withRegs [(1, 1)]).reg 0).toNat < ((withRegs [(1, 1)]).reg 1).toNat
      then 1 else 0) := by decide

theorem witness_VfAsAnOperandFollowsTheTable :
    (14 : Reg) ≠ VF ∧ (0 : Reg) ≠ VF ∧
    ∀ i ∈ [Instr.addReg VF 0, .addReg 14 VF, .addReg VF VF, .sub VF 0, .sub 14 VF, .sub VF VF,
      .subn VF 0, .subn 14 VF, .subn VF VF, .shr VF 3, .shl VF 3],
      gives (exec i State.reset) (fun _ => true) := by decide

theorem witness_BcdStoresThreeDigits :
    (State.reset.setI 0xFFD).i.toNat + 2 ≤ 0xFFF ∧ 0xFFF < (State.reset.setI 0xFFE).i.toNat + 2 := by
  decide

theorem witness_BlockStoreWritesV0ToVx :
    (State.reset.setI 0xFF0).i.toNat + (15 : Reg).val ≤ 0xFFF ∧
    0xFFF < (State.reset.setI 0xFF1).i.toNat + (15 : Reg).val := by decide

theorem witness_BlockLoadReadsV0ToVx :
    (State.reset.setI 0xFFF).i.toNat + (0 : Reg).val ≤ 0xFFF ∧
    0xFFF < (State.reset.setI 0x1000).i.toNat + (0 : Reg).val := by decide

theorem witness_BlockLoadUndoesBlockStore :
    (State.reset.setI 0xFF0).i.toNat + (15 : Reg).val ≤ 0xFFF ∧
    ∃ t, exec (.ldMemVx 15) (State.reset.setI 0xFF0) = .next t ∧
      ∃ u : State, u.mem = t.mem ∧ u.params = t.params ∧ u.i = (State.reset.setI 0xFF0).i :=
  ⟨by decide, _, rfl, State.setI _ 0xFF0, rfl, rfl, rfl⟩

/-- Each clause: in range, no row at all, beyond MEM, a collision and none. -/
theorem witness_DrawTogglesTheCoveredPixels :
    ((15 : Nat) ≤ 15 ∧ (State.reset.setI 0xFF1).i.toNat + 15 ≤ 0x1000) ∧
    ((0 : Nat) = 0 ∨ (State.reset.setI 0xFFFF).i.toNat + 0 ≤ 0x1000) ∧
    ((1 : Nat) ≠ 0 ∧ 0x1000 < (State.reset.setI 0x1000).i.toNat + 1) ∧
    (∃ X < 64, ∃ Y < 32, SpriteCovers (State.reset.setFb (litAt [(0, 0)])) 0 1 1 X Y ∧
      pixel (State.reset.setFb (litAt [(0, 0)])).fb X Y = true) ∧
    ¬ ∃ X < 64, ∃ Y < 32, SpriteCovers State.reset 0 1 1 X Y ∧ pixel State.reset.fb X Y = true := by
  refine ⟨by decide, by decide, by decide, ?_, ?_⟩
  · exact ⟨0, by decide, 0, by decide, ⟨0, by decide, 0, by decide, by decide, by decide, by decide⟩,
      by decide⟩
  · rintro ⟨X, -, Y, -, -, h⟩
    exact absurd h (by rw [show State.reset.fb = clearFb from rfl, pixel_clearFb]; simp)

theorem witness_DrawingTwiceRestoresTheScreen :
    (15 : Nat) ≤ 15 ∧ (State.reset.setI 0xFF1).i.toNat + 15 ≤ 0x1000 ∧
    ∃ t, exec (.drw 0 1 15) (State.reset.setI 0xFF1) = .next t ∧
      ∃ s' : State, s'.fb = t.fb ∧ s'.i = (State.reset.setI 0xFF1).i ∧
        s'.reg 0 = (State.reset.setI 0xFF1).reg 0 ∧ s'.reg 1 = (State.reset.setI 0xFF1).reg 1 ∧
        ∀ k < 15, s'.readByte (0xFF1 + BitVec.ofNat 16 k) =
          (State.reset.setI 0xFF1).readByte (0xFF1 + BitVec.ofNat 16 k) :=
  ⟨by decide, by decide, _, rfl, (State.reset.setI 0xFF1).setFb _, rfl, rfl, rfl, rfl,
    fun _ _ => rfl⟩

theorem witness_KeyWaitPollsForAHeldKey :
    State.reset.keys = 0 ∧ (State.reset.press 15).keys ≠ 0 := by decide

theorem witness_KeyEventsChangeOneBit :
    ∃ t, transact .tick State.reset = .next t ∧ (∀ k, Transaction.tick ≠ .press k) ∧
      ∀ k, Transaction.tick ≠ .release k :=
  ⟨_, rfl, by simp, by simp⟩

theorem witness_PowerOnHoldsTheResetValues :
    State.powerOn edgeParams = State.powerOn edgeParams := rfl

/-- An image that fills the room above ENTRY exactly. -/
theorem witness_ResetRestoresTheEngine :
    (State.powerOn edgeParams).params.valid = true ∧ [(0x12 : Byte), 0x00] ≠ [] ∧
    (State.powerOn edgeParams).params.entry.toNat + [(0x12 : Byte), 0x00].length ≤ 0x1000 := by
  decide

/-- The largest image taken, the smallest refused for its size. -/
theorem witness_LoadCopiesTheImageOrIsRefused :
    (State.powerOn edgeParams).params.valid = true ∧ [(0x12 : Byte), 0x00] ≠ [] ∧
    (State.powerOn edgeParams).params.entry.toNat + [(0x12 : Byte), 0x00].length ≤ 0x1000 ∧
    0x1000 < (State.powerOn edgeParams).params.entry.toNat + [(0x12 : Byte), 0x00, 0x00].length := by
  decide

theorem witness_BootRunsTheImageFromEntry :
    edgeParams.valid = true ∧ edgeParams.entry.toNat + (([] : List Byte).length + 2) ≤ 0x1000 := by
  decide

end Sys2Proof.Tests
end

section
/-! SUPPORT. What an instruction and a STEP can do, said once: one effect rule per operation of State,
the inversion of `exec` and of `step`, what keeps the invariant, and runs that differ in ST and KEYS. -/

namespace Sys2Proof.Machine

/-! ## The effect of one operation -/

/-- `t` comes from `s` by writes inside `regs` and `parts` that keep MEM canonical and SP legal. -/
structure Effect (regs : List Reg) (parts : List Part) (s t : State) : Prop where
  frame : Frame regs parts s t
  memWf : Memory.wf s.params.font s.mem = true → Memory.wf t.params.font t.mem = true
  spLegal : s.sp.toNat ≤ 16 → t.sp.toNat ≤ 16

section Effect
variable {regs : List Reg} {parts : List Part} {s t u : State}

theorem Frame.trans (h : Frame regs parts s t) (k : Frame regs parts t u) :
    Frame regs parts s u where
  reg r hr := (k.reg r hr).trans (h.reg r hr)
  i hp := (k.i hp).trans (h.i hp)
  pc hp := (k.pc hp).trans (h.pc hp)
  sp hp := (k.sp hp).trans (h.sp hp)
  stack hp := (k.stack hp).trans (h.stack hp)
  dt hp := (k.dt hp).trans (h.dt hp)
  st hp := (k.st hp).trans (h.st hp)
  mem hp a := (k.mem hp a).trans (h.mem hp a)
  fb hp := (k.fb hp).trans (h.fb hp)
  fault hp := (k.fault hp).trans (h.fault hp)
  prescale hp := (k.prescale hp).trans (h.prescale hp)
  draws hp := (k.draws hp).trans (h.draws hp)
  keys := k.keys.trans h.keys
  params := k.params.trans h.params

/-- A frame that keeps FAULT keeps whether the engine is halted (R202). -/
theorem Frame.halted (h : Frame regs parts s t) (hp : .fault ∉ parts) : t.halted = s.halted := by
  rw [State.halted, State.halted, h.fault hp]

theorem Effect.trans (h : Effect regs parts s t) (k : Effect regs parts t u) :
    Effect regs parts s u :=
  ⟨h.frame.trans k.frame, k.memWf ∘ h.memWf, k.spLegal ∘ h.spLegal⟩

theorem Effect.setReg {x : Reg} (hx : x ∈ regs) (b : Byte) :
    Effect regs parts s (s.setReg x b) := by
  refine ⟨?_, id, id⟩
  constructor
  case reg => exact fun r hr => s.reg_setReg_other b fun e => hr (e ▸ hx)
  all_goals simp

theorem Effect.setI (hi : .i ∈ parts) (a : Word) : Effect regs parts s (s.setI a) := by
  refine ⟨?_, id, id⟩
  constructor <;> simp [hi]

theorem Effect.setPc (hp : .pc ∈ parts) (a : Word) : Effect regs parts s (s.setPc a) := by
  refine ⟨?_, id, id⟩
  constructor <;> simp [hp]

theorem Effect.setDt (hd : .dt ∈ parts) (b : Byte) : Effect regs parts s (s.setDt b) := by
  refine ⟨?_, id, id⟩
  constructor <;> simp [hd]

theorem Effect.setSt (hs : .st ∈ parts) (b : Byte) : Effect regs parts s (s.setSt b) := by
  refine ⟨?_, id, id⟩
  constructor <;> simp [hs]

theorem Effect.setFb (hf : .fb ∈ parts) (fb : Vector PixelRow 32) :
    Effect regs parts s (s.setFb fb) := by
  refine ⟨?_, id, id⟩
  constructor <;> simp [hf]

theorem Effect.countDraw (hd : .draws ∈ parts) : Effect regs parts s s.countDraw := by
  refine ⟨?_, id, id⟩
  constructor <;> simp [hd]

theorem Effect.skipIf (hp : .pc ∈ parts) (c : Bool) : Effect regs parts s (s.skipIf c) := by
  refine ⟨?_, by simp, by simp⟩
  constructor <;> simp [hp]

/-- A push below SP = 16 leaves SP legal (R24, R102). -/
theorem Effect.push (hsp : .sp ∈ parts) (hst : .stack ∈ parts) (h : s.sp ≠ 16) (a : Word) :
    Effect regs parts s (s.push a) := by
  refine ⟨?_, id, fun hle => ?_⟩
  · constructor <;> simp [hsp, hst]
  · have : s.sp.toNat ≠ 16 := fun e => h (BitVec.eq_of_toNat_eq e)
    simp only [State.push_sp]
    bv_omega

/-- A drop above SP = 0 leaves SP legal (R24, R100). -/
theorem Effect.dropTop (hsp : .sp ∈ parts) (h : s.sp ≠ 0) : Effect regs parts s s.dropTop := by
  refine ⟨?_, id, fun hle => ?_⟩
  · constructor <;> simp [hsp]
  · simp only [State.dropTop_sp]
    bv_omega

/-- A write that its range check let pass keeps MEM canonical (R50, R56). -/
theorem Effect.writeBytes (hm : .mem ∈ parts) {base : Word} {bs : List Byte}
    (hr : firstOutOfRange base bs.length = none) : Effect regs parts s (s.writeBytes base bs) := by
  refine ⟨?_, s.wf_writeBytes base bs ((firstOutOfRange_eq_none _ _).1 hr), by simp⟩
  constructor <;> simp [hm]

theorem Effect.setRegsFrom {bs : List Byte} (hl : bs.length ≤ 16)
    (hr : ∀ r : Reg, r.val < bs.length → r ∈ regs) : Effect regs parts s (s.setRegsFrom 0 bs) := by
  refine ⟨?_, by simp, by simp⟩
  constructor
  case reg =>
    intro r hmem
    rw [s.reg_setRegsFrom 0 bs (by omega), dif_neg]
    exact fun hlt => hmem (hr r (by omega))
  all_goals simp

end Effect

/-! ## What an instruction can do -/

/-- `exec`, inverted: an instruction either writes what the access matrix R34 gives it, or raises the
fault that its own check owes and writes nothing else (R13). -/
theorem exec_cases {i : Instr} {s t : State} (h : exec i s = .next t) :
    Effect (writableRegs i) (writableParts i) s t ∨
      ∃ c a, ExecFaultDue i s c a ∧ t = s.raise c (encode i) a := by
  cases i with
  | cls => cases h; exact .inl (.setFb (by simp [writableParts]) _)
  | ret =>
    simp only [exec, execRet] at h
    split at h
    · next h0 => cases h; exact .inr ⟨_, _, ⟨h0, rfl, rfl⟩, rfl⟩
    · next h0 =>
      cases h
      exact .inl (.trans (.setPc (by simp [writableParts]) _) (.dropTop (by simp [writableParts]) h0))
  | call nnn =>
    simp only [exec, execCall] at h
    split at h
    · next h0 => cases h; exact .inr ⟨_, _, ⟨h0, rfl, rfl⟩, rfl⟩
    · next h0 =>
      cases h
      exact .inl (.trans (.push (by simp [writableParts]) (by simp [writableParts]) h0 _)
        (.setPc (by simp [writableParts]) _))
  | jp | jpV0 => cases h; exact .inl (.setPc (by simp [writableParts]) _)
  | seImm | sneImm | seReg | sneReg | skp | sknp =>
    cases h; exact .inl (.skipIf (by simp [writableParts]) _)
  | ldImm | addImm | ldReg | orReg | andReg | xorReg | ldVxDt =>
    cases h; exact .inl (.setReg (by simp [writableRegs]) _)
  | addReg | sub | shr | subn | shl =>
    cases h
    exact .inl (.trans (.setReg (by simp [writableRegs]) _) (.setReg (by simp [writableRegs]) _))
  | rnd =>
    cases h
    exact .inl (.trans (.countDraw (by simp [writableParts])) (.setReg (by simp [writableRegs]) _))
  | ldI | addI | ldF => cases h; exact .inl (.setI (by simp [writableParts]) _)
  | ldDtVx => cases h; exact .inl (.setDt (by simp [writableParts]) _)
  | ldStVx => cases h; exact .inl (.setSt (by simp [writableParts]) _)
  | ldVxK x =>
    simp only [exec, execLdVxK] at h
    split at h
    · cases h; exact .inl (.setPc (by simp [writableParts]) _)
    · cases h
      exact .inl (.trans (.countDraw (by simp [writableParts])) (.setReg (by simp [writableRegs]) _))
  | drw x y n =>
    simp only [exec, execDrw] at h
    split at h
    · next ha => cases h; exact .inr ⟨_, _, ⟨rfl, (firstOutOfRange_eq_some _ _ _).1 ha⟩, rfl⟩
    · cases h
      exact .inl (.trans (.setFb (by simp [writableParts]) _) (.setReg (by simp [writableRegs]) _))
  | ldB x =>
    simp only [exec, execLdB] at h
    split at h
    · next ha => cases h; exact .inr ⟨_, _, ⟨rfl, (firstOutOfRange_eq_some _ _ _).1 ha⟩, rfl⟩
    · next hr => cases h; exact .inl (.writeBytes (by simp [writableParts]) hr)
  | ldMemVx x =>
    simp only [exec, execLdMemVx] at h
    split at h
    · next ha => cases h; exact .inr ⟨_, _, ⟨rfl, (firstOutOfRange_eq_some _ _ _).1 ha⟩, rfl⟩
    · next hr =>
      cases h
      exact .inl (.trans (.writeBytes (by simp [writableParts]) (by simpa using hr))
        (.setI (by simp [writableParts]) _))
  | ldVxMem x =>
    simp only [exec, execLdVxMem] at h
    split at h
    · next ha => cases h; exact .inr ⟨_, _, ⟨rfl, (firstOutOfRange_eq_some _ _ _).1 ha⟩, rfl⟩
    · cases h
      refine .inl (.trans (.setRegsFrom ?_ fun r hr => ?_) (.setI (by simp [writableParts]) _))
      · rw [State.readBytes_length]
        exact x.isLt
      · rw [State.readBytes_length] at hr
        have hle : r ≤ x := Nat.le_of_lt_succ hr
        exact List.mem_filter.2 ⟨List.mem_finRange r, decide_eq_true hle⟩

theorem fault_notMem_writableParts (i : Instr) : Part.fault ∉ writableParts i := by
  cases i <;> simp [writableParts]

theorem prescale_notMem_writableParts (i : Instr) : Part.prescale ∉ writableParts i := by
  cases i <;> simp [writableParts]

/-- Every fault an instruction owes has a code, and FAULT gets one of its shapes (R31, R200). -/
theorem ExecFaultDue.code_and_shape {i : Instr} {s : State} {c : FaultCode} {a : Word}
    (h : ExecFaultDue i s c a) (ipc op : Word) :
    c ≠ .none ∧ (FaultReg.mk c ipc op a).wf = true := by
  cases i with
  | ret | call => obtain ⟨-, rfl, rfl⟩ := h; exact ⟨by decide, rfl⟩
  | drw | ldVxMem | ldB | ldMemVx =>
    obtain ⟨rfl, _, -, -, hgt, -⟩ := h
    exact ⟨by decide, (outOfRange_iff a).2 hgt⟩
  | _ => exact h.elim

theorem st_notMem_writableParts {i : Instr} (hi : ∀ x, i ≠ .ldStVx x) :
    Part.st ∉ writableParts i := by
  cases i with
  | ldStVx x => exact absurd rfl (hi x)
  | _ => simp [writableParts]

theorem keys_of_exec {i : Instr} {s t : State} (h : exec i s = .next t) : t.keys = s.keys := by
  obtain ⟨hf, -, -⟩ | ⟨_, _, -, rfl⟩ := exec_cases h
  · exact hf.keys
  · rfl

/-- Only LD ST,Vx writes ST (R27, R34). -/
theorem st_of_exec {i : Instr} {s t : State} (h : exec i s = .next t) (hi : ∀ x, i ≠ .ldStVx x) :
    t.st = s.st := by
  obtain ⟨hf, -, -⟩ | ⟨_, _, -, rfl⟩ := exec_cases h
  · exact hf.st (st_notMem_writableParts hi)
  · rfl

theorem State.raise_frame (s : State) (c : FaultCode) (op a : Word) :
    Frame [] [.pc, .fault] s (s.raise c op a) := by
  constructor <;> simp

/-! ## What a STEP can do -/

/-- `step`, inverted (R71, R202). -/
theorem step_cases {s t : State} (h : step s = .next t) :
    (s.halted = true ∧ t = s) ∨
    (s.halted = false ∧ ∃ a, s.fetch = .error a ∧ t = s.raiseFetch a) ∨
    (s.halted = false ∧ ∃ op e, s.fetch = .ok op ∧ decode op = .error e ∧
      t = (s.advancePc.runUnmatched op).finishStep) ∨
    (s.halted = false ∧ ∃ op i u, s.fetch = .ok op ∧ decode op = .ok i ∧
      exec i s.advancePc = .next u ∧ t = u.finishStep) := by
  unfold step at h
  split at h
  · next hh => cases h; exact .inl ⟨hh, rfl⟩
  · next hh =>
    have hh : s.halted = false := by simpa using hh
    split at h
    · next a hf => cases h; exact .inr (.inl ⟨hh, a, hf, rfl⟩)
    · next op hf =>
      split at h
      · next e hd => cases h; exact .inr (.inr (.inl ⟨hh, op, e, hf, hd, rfl⟩))
      · next i hd =>
        split at h
        · next u he => cases h; exact .inr (.inr (.inr ⟨hh, op, i, u, hf, hd, he, rfl⟩))
        · cases h
        · cases h

/-- The address a failed fetch reports is outside MEM (R70). -/
theorem State.outOfRange_of_fetch_error {s : State} {a : Word} (h : s.fetch = .error a) :
    outOfRange a = true := by
  unfold State.fetch at h
  split at h
  · next ha => cases h; exact ha
  · split at h
    · next ha => cases h; exact ha
    · cases h

/-! ## What keeps the invariant -/

section Inv
variable {s t : State}

theorem Inv.advancePc (h : Inv s) (hh : s.halted = false) : Inv s.advancePc :=
  ⟨h.params, h.mem, h.sp, h.prescale, h.fault, by simp [hh]⟩

/-- Taking a fault keeps the invariant: PC becomes FAULT.ipc (R201). -/
theorem Inv.recordFault (h : Inv s) {c : FaultCode} {A op a : Word}
    (hw : (FaultReg.mk c A op a).wf = true) : Inv (s.recordFault c A op a) :=
  ⟨h.params, h.mem, h.sp, h.prescale, hw, fun _ => rfl⟩

theorem Inv.runUnmatched (h : Inv s) (op : Word) : Inv (s.runUnmatched op) := by
  unfold State.runUnmatched
  split
  · exact h.recordFault rfl
  · exact h

/-- The end of a STEP keeps the invariant: PRESCALE restarts before it reaches TIMER_N (R32, R211). -/
theorem Inv.finishStep (h : Inv s) : Inv s.finishStep := by
  obtain hs | ⟨-, -, -, hs⟩ | ⟨-, -, hn, hs⟩ := s.finishStep_cases
  · rwa [hs]
  · rw [hs]
    exact ⟨h.params, h.mem, h.sp, Nat.zero_lt_of_lt h.prescale, h.fault, h.faultPc⟩
  · have hlt : s.prescale + 1 < s.params.timerN := Nat.lt_of_le_of_ne h.prescale hn
    rw [hs]
    exact ⟨h.params, h.mem, h.sp, hlt, h.fault, h.faultPc⟩

/-- An instruction that runs on a running engine keeps the invariant. -/
theorem Inv.of_exec {i : Instr} (h : Inv s) (hh : s.halted = false) (he : exec i s = .next t) :
    Inv t := by
  obtain ⟨hf, hmem, hsp⟩ | ⟨c, a, hdue, rfl⟩ := exec_cases he
  · have hnot := fault_notMem_writableParts i
    exact {
      params := hf.params ▸ h.params
      mem := hmem h.mem
      sp := hsp h.sp
      prescale := by
        rw [hf.prescale (prescale_notMem_writableParts i), hf.params]
        exact h.prescale
      fault := hf.fault hnot ▸ h.fault
      faultPc := fun ht => by simp [hf.halted hnot, hh] at ht }
  · exact h.recordFault (hdue.code_and_shape _ _).2

/-- The first state meets the invariant, for all valid parameters (R35, R241). -/
theorem Inv.powerOn {p : Params} (hp : p.valid = true) : Inv (State.powerOn p) where
  params := hp
  mem := rfl
  sp := Nat.zero_le _
  prescale := by
    simp only [Params.valid, Bool.and_eq_true, decide_eq_true_eq] at hp
    exact hp.2
  fault := rfl
  faultPc h := by cases h

end Inv

/-- The first state reads the font at 0x000 to 0x04F: nothing is listed there (R54). -/
theorem readByte_powerOn (p : Params) (a : Fin 80) :
    (State.powerOn p).readByte (BitVec.ofNat 16 a.val) = p.font[a] := by
  have ha : (BitVec.ofNat 16 a.val).toNat = a.val := by
    rw [BitVec.toNat_ofNat]
    omega
  simp [State.readByte, State.powerOn, Memory.read, Memory.lookup, Memory.blank, ha]

/-! ## Runs that differ in ST and KEYS -/

/-- `s` with other values of ST and KEYS. -/
def State.withStKeys (s : State) (b : Byte) (k : BitVec 16) : State := { s with st := b, keys := k }

section WithStKeys
variable (s : State) (b : Byte) (k : BitVec 16)

theorem State.skipIf_withStKeys (c : Bool) :
    (s.withStKeys b k).skipIf c = (s.skipIf c).withStKeys b k := by
  cases c <;> rfl

theorem State.writeBytes_withStKeys (a : Word) (bs : List Byte) :
    (s.withStKeys b k).writeBytes a bs = (s.writeBytes a bs).withStKeys b k := by
  induction bs generalizing s a with
  | nil => rfl
  | cons c cs ih => exact ih (s.writeByte a c) (a + 1)

theorem State.setRegsFrom_withStKeys (n : Nat) (bs : List Byte) :
    (s.withStKeys b k).setRegsFrom n bs = (s.setRegsFrom n bs).withStKeys b k := by
  induction bs generalizing s n with
  | nil => rfl
  | cons c cs ih => exact ih (s.setReg (Fin.ofNat 16 n) c) (n + 1)

/-- Whatever ST is, and whatever KEYS is for an instruction that reads no key, the instruction
does the same. -/
theorem exec_withStKeys {i : Instr} {t : State} (hst : ∀ x, i ≠ .ldStVx x)
    (hk : k = s.keys ∨ ∀ x, i ≠ .skp x ∧ i ≠ .sknp x ∧ i ≠ .ldVxK x) (h : exec i s = .next t) :
    exec i (s.withStKeys b k) = .next (t.withStKeys b k) := by
  cases i with
  | ldStVx x => exact absurd rfl (hst x)
  | skp x =>
    obtain rfl := hk.resolve_right fun hn => (hn x).1 rfl
    cases h; exact congrArg _ (s.skipIf_withStKeys b _ _)
  | sknp x =>
    obtain rfl := hk.resolve_right fun hn => (hn x).2.1 rfl
    cases h; exact congrArg _ (s.skipIf_withStKeys b _ _)
  | ldVxK x =>
    obtain rfl := hk.resolve_right fun hn => (hn x).2.2 rfl
    have hkeys : (s.withStKeys b s.keys).heldKeys = s.heldKeys := rfl
    simp only [exec, execLdVxK, hkeys] at h ⊢
    split at h <;> cases h <;> rfl
  | seImm | sneImm | seReg | sneReg => cases h; exact congrArg _ (s.skipIf_withStKeys b k _)
  | ret =>
    have hsp : (s.withStKeys b k).sp = s.sp := rfl
    simp only [exec, execRet, hsp] at h ⊢
    split at h
    · next h0 => cases h; exact if_pos h0
    · next h0 => cases h; exact if_neg h0
  | call nnn =>
    have hsp : (s.withStKeys b k).sp = s.sp := rfl
    simp only [exec, execCall, hsp] at h ⊢
    split at h
    · next h0 => cases h; exact if_pos h0
    · next h0 => cases h; exact if_neg h0
  | drw x y n =>
    have hi : (s.withStKeys b k).i = s.i := rfl
    simp only [exec, execDrw, hi] at h ⊢
    split at h <;> cases h <;> rfl
  | ldB x =>
    have hi : (s.withStKeys b k).i = s.i := rfl
    simp only [exec, execLdB, hi] at h ⊢
    split at h <;> cases h
    · rfl
    · exact congrArg _ (s.writeBytes_withStKeys b k _ _)
  | ldMemVx x =>
    have hi : (s.withStKeys b k).i = s.i := rfl
    simp only [exec, execLdMemVx, hi] at h ⊢
    split at h <;> cases h
    · rfl
    · rw [s.writeBytes_withStKeys b k]; rfl
  | ldVxMem x =>
    have hi : (s.withStKeys b k).i = s.i := rfl
    simp only [exec, execLdVxMem, hi] at h ⊢
    split at h <;> cases h
    · rfl
    · rw [s.setRegsFrom_withStKeys b k]; rfl
  | _ => cases h; rfl

end WithStKeys

end Sys2Proof.Machine
end

section
/-! The obligations of spec/10_state.md. -/

namespace Sys2Proof.Proofs

open Sys2Proof.Machine

/-- Settles O18: `step_cases`, and each way a STEP can end keeps the invariant. -/
theorem stepKeepsTheInvariant : Obligations.StepKeepsTheInvariant := by
  intro s t hi hstep
  obtain ⟨-, rfl⟩ | ⟨-, a, hf, rfl⟩ | ⟨hh, op, -, -, -, rfl⟩ | ⟨hh, -, i, u, -, -, he, rfl⟩ :=
    step_cases hstep
  · exact hi
  · exact hi.recordFault (by simp [FaultReg.wf, State.outOfRange_of_fetch_error hf])
  · exact ((hi.advancePc hh).runUnmatched op).finishStep
  · exact ((hi.advancePc hh).of_exec hh he).finishStep

/-- Settles O14: `exec_cases`; a write inside the matrix leaves FAULT clear, and a raise halts. -/
theorem instructionsWriteOnlyWhatTheMatrixSays :
    Obligations.InstructionsWriteOnlyWhatTheMatrixSays := by
  intro i s t hh he
  obtain ⟨hf, -, -⟩ | ⟨c, a, hdue, rfl⟩ := exec_cases he
  · have ht : t.halted = false := (hf.halted (fault_notMem_writableParts i)).trans hh
    exact ⟨fun _ => hf, by simp [ht]⟩
  · have ht := s.halted_raise c (encode i) a (hdue.code_and_shape 0 0).1
    exact ⟨by simp [ht], fun _ => s.raise_frame c (encode i) a⟩

/-- Settles O15: `exec_withStKeys` with KEYS as it is; LD ST,Vx overwrites the ST it does not read. -/
theorem noInstructionReadsTheSoundTimer : Obligations.NoInstructionReadsTheSoundTimer := by
  intro i s t b he
  refine ⟨fun hst => ?_, ?_⟩
  · have ht : t.withStKeys b s.keys = { t with st := b } := by rw [← keys_of_exec he]; rfl
    rw [← ht]
    exact exec_withStKeys s b s.keys hst (.inl rfl) he
  · rintro x rfl
    cases he
    rfl

/-- Settles O16: `exec_withStKeys` with ST as it is. -/
theorem onlyKeyInstructionsReadKeys : Obligations.OnlyKeyInstructionsReadKeys := by
  intro i s t k hskp hsknp hldVxK he
  by_cases hst : ∃ x, i = .ldStVx x
  · obtain ⟨x, rfl⟩ := hst
    cases he
    rfl
  · have hst : ∀ x, i ≠ .ldStVx x := not_exists.1 hst
    have ht : t.withStKeys s.st k = { t with keys := k } := by rw [← st_of_exec he hst]; rfl
    rw [← ht]
    exact exec_withStKeys s s.st k hst (.inr fun x => ⟨hskp x, hsknp x, hldVxK x⟩) he

/-- Settles O17: `Inv.powerOn`, for the default parameters too. -/
theorem resetMeetsTheInvariant : Obligations.ResetMeetsTheInvariant :=
  ⟨.powerOn (by decide), fun _ => .powerOn⟩

/-- Settles O48: each field of the first state is read off; the font is what unlisted addresses hold. -/
theorem powerOnHoldsTheResetValues : Obligations.PowerOnHoldsTheResetValues := by
  refine ⟨rfl, by decide, ?_⟩
  rintro p s rfl
  refine ⟨fun r => ?_, rfl, rfl, rfl, fun j => ?_, rfl, rfl, fun X Y => ?_, readByte_powerOn p,
    rfl, rfl, rfl⟩
  · simp [State.powerOn, State.reg]
  · simp [State.powerOn]
  · exact congrArg Bool.toNat (pixel_clearFb X Y)

end Sys2Proof.Proofs
end

section
/-! SUPPORT. A canonical memory is determined by the bytes it knows; a write changes nothing but MEM;
what LD [I],Vx leaves when it is in range. -/

namespace Sys2Proof.Machine

/-! ## The cells of a canonical memory -/

theorem Memory.rising_iff_pairwise (m : List Host.Cell) :
    Memory.rising m = true ↔ m.Pairwise fun c d => c.1 < d.1 := by
  induction m with
  | nil => simp [Memory.rising]
  | cons c cs ih => simp [Memory.rising, ih]

/-- No address is listed twice in a rising memory, so each of its cells is the one looked up. -/
theorem Memory.mem_iff_lookup {m : List Host.Cell} (h : Memory.rising m = true) (a : Nat) (b : Byte) :
    (a, b) ∈ m ↔ Memory.lookup m a = some b := by
  induction m with
  | nil => simp [Memory.lookup]
  | cons c cs ih =>
    simp only [Memory.rising, Bool.and_eq_true, List.all_eq_true, decide_eq_true_eq] at h
    obtain ⟨hlt, hcs⟩ := h
    rw [List.mem_cons, ih hcs, Memory.lookup]
    split
    · next hc =>
      have hnot : Memory.lookup cs a ≠ some b := fun hb =>
        absurd (hlt (a, b) ((ih hcs).2 hb)) (by simp [hc])
      simp [Prod.ext_iff, hc, hnot, eq_comm]
    · next hc =>
      have hne : (a, b) ≠ c := fun e => hc (e ▸ rfl)
      simp [hne]

/-- The cells of a canonical memory are the known bytes that the font does not account for: its
known bytes alone say which they are. -/
theorem Memory.mem_iff_known {font : Vector Byte 80} {m : List Host.Cell}
    (h : Memory.wf font m = true) (a : Nat) (b : Byte) :
    (a, b) ∈ m ↔
      (Memory.lookup m a).or (Memory.blank font a) = some b ∧ Memory.blank font a ≠ some b := by
  obtain ⟨hrise, hcells⟩ := (Memory.wf_iff font m).1 h
  rw [Option.or_eq_some_iff, ← Memory.mem_iff_lookup hrise]
  constructor
  · exact fun hm => ⟨.inl hm, (hcells _ hm).2⟩
  · rintro ⟨hm | ⟨-, hb⟩, hne⟩
    · exact hm
    · exact absurd hb hne

/-- Rising memories with the same cells are the same list. -/
theorem Memory.eq_of_rising {m m' : List Host.Cell} (h : Memory.rising m = true)
    (h' : Memory.rising m' = true) (hmem : ∀ c, c ∈ m ↔ c ∈ m') : m = m' := by
  rw [Memory.rising_iff_pairwise] at h h'
  have hirrefl : Std.Irrefl fun c d : Host.Cell => c.1 < d.1 := ⟨fun c => Nat.lt_irrefl c.1⟩
  have hantisymm : Std.Antisymm fun c d : Host.Cell => c.1 < d.1 :=
    ⟨fun c d hcd hdc => absurd hdc (Nat.lt_asymm hcd)⟩
  exact h.eq_of_mem_iff h' hmem

/-! ## Writes and block stores -/

/-- A multi-byte write changes MEM only, whatever its addresses are. -/
theorem State.writeBytes_frame (s : State) (a : Word) (bs : List Byte) :
    Frame [] [.mem] s (s.writeBytes a bs) := by
  constructor <;> simp

theorem firstOutOfRange_of_fits {base : Word} {n : Nat} (h : base.toNat + n ≤ 0x1000) :
    firstOutOfRange base n = none := by
  rw [firstOutOfRange_eq_none]
  intro k hk
  rw [BitVec.toNat_add, BitVec.toNat_ofNat]
  omega

/-- LD [I],Vx in range stores V0 to Vx at I and adds x to I (R145). -/
theorem exec_ldMemVx_of_fits {x : Reg} {s : State} (h : s.i.toNat + x.val ≤ 0xFFF) :
    exec (.ldMemVx x) s =
      .next ((s.writeBytes s.i (s.regsUpTo (blockLength x))).setI (s.i + blockStride x)) := by
  have hfits : firstOutOfRange s.i (blockLength x) = none :=
    firstOutOfRange_of_fits (by rw [blockLength]; omega)
  simp only [exec, execLdMemVx, hfits]

/-- After V0 to Vx are stored from `base` on, the byte at base + k is V[k]. -/
theorem State.readByte_writeBytes_regsUpTo (s : State) (base : Word) {k x : Reg} (h : k ≤ x) :
    (s.writeBytes base (s.regsUpTo (blockLength x))).readByte (base + BitVec.ofNat 16 k.val) =
      s.reg k := by
  have hk : k.val < blockLength x := Nat.lt_succ_of_le h
  have hlen : (s.regsUpTo (blockLength x)).length ≤ 65536 := by
    rw [State.regsUpTo_length, blockLength]
    omega
  rw [s.readByte_writeBytes base _ hlen k.val (by simpa using hk), s.regsUpTo_getElem _ _ hk,
    Fin.ofNat_val_eq_self]

end Sys2Proof.Machine
end

section
/-! The obligations of spec/20_memory.md. -/

namespace Sys2Proof.Proofs

open Sys2Proof.Machine

/-- Settles O22: by `Memory.mem_iff_known` the two memories have the same cells, in the same order. -/
theorem canonicalMemoriesAreEqualData : Obligations.CanonicalMemoriesAreEqualData := by
  intro font m m' h h' hknown
  refine Memory.eq_of_rising ((Memory.wf_iff font m).1 h).1 ((Memory.wf_iff font m').1 h').1 ?_
  rintro ⟨a, b⟩
  rw [Memory.mem_iff_known h, Memory.mem_iff_known h', hknown]

/-- Settles O23: the bytes stored at I and I + 1 are V0 and V1, and the store leaves PC at I. -/
theorem storedBytesAreFetchedNext : Obligations.StoredBytesAreFetchedNext := by
  intro s x hpc hx hfits
  refine ⟨_, exec_ldMemVx_of_fits hfits, ?_⟩
  have h0 := s.readByte_writeBytes_regsUpTo s.i (k := 0) (x := x) (Fin.zero_le x)
  have h1 := s.readByte_writeBytes_regsUpTo s.i (k := 1) (x := x) hx
  rw [State.fetch_of_inRange]
  · simpa [← hpc] using congrArg₂ opcodeOfBytes h0 h1
  · simp only [State.setI_pc, State.writeBytes_pc, ← hpc]
    omega

/-- Settles O21: `State.readByte_writeByte`, and a one-byte write is a write of a list of one. -/
theorem readReturnsTheLastWrite : Obligations.ReadReturnsTheLastWrite :=
  fun s a c b => ⟨s.readByte_writeByte a c b, s.writeBytes_frame a [b]⟩

end Sys2Proof.Proofs
end

section
/-! SUPPORT. The decoder and the encoder invert each other; an instruction's word and its row of the
opcode map; which function codes no instruction has. -/

namespace Sys2Proof

section Words
variable {op : Word} {c : BitVec 4}

/-! ## The fields as numbers, and a word as a form of its fields -/

theorem classOf_toNat (op : Word) : (classOf op).toNat = op.toNat / 0x1000 := by
  rw [classOf, BitVec.extractLsb'_toNat, Nat.shiftRight_eq_div_pow]
  omega

theorem fieldN_toNat (op : Word) : (fieldN op).toNat = op.toNat % 0x10 := by
  rw [fieldN, BitVec.extractLsb'_toNat, Nat.shiftRight_zero]

theorem fieldKK_toNat (op : Word) : (fieldKK op).toNat = op.toNat % 0x100 := by
  rw [fieldKK, BitVec.extractLsb'_toNat, Nat.shiftRight_zero]

theorem formNNN_of_class (hc : classOf op = c) : formNNN c (fieldNNN op) = op := by
  rw [← hc, formNNN_fields]

theorem formXKK_of_class (hc : classOf op = c) : formXKK c (fieldX op) (fieldKK op) = op := by
  rw [← hc, formXKK_fields]

theorem formXYN_of_code {n : BitVec 4} (hc : classOf op = c) (hn : fieldN op = n) :
    formXYN c (fieldX op) (fieldY op) n = op := by
  rw [← hc, ← hn, formXYN_fields]

/-! ## The decoder inverts the encoder (R74) -/

theorem decode_encode {i : Instr} (h : i.wellFormed = true) : decode (encode i) = .ok i := by
  cases i with
  | cls | ret => rfl
  | jp | call | ldI | jpV0 | seImm | sneImm | ldImm | addImm | rnd | seReg | sneReg =>
    simp [encode, decode]
  | ldReg | orReg | andReg | xorReg | addReg | sub | shr | subn | shl =>
    simp [encode, decode, decodeAlu]
  | drw x y n =>
    have hn : n ≤ 15 := of_decide_eq_true h
    have hmod : n % 16 = n := Nat.mod_eq_of_lt (Nat.lt_succ_of_le hn)
    simp [encode, decode, hmod]
  | skp | sknp => simp [encode, decode, decodeKey]
  | ldVxDt | ldDtVx | ldVxK | ldStVx | addI | ldF | ldB | ldMemVx | ldVxMem =>
    simp [encode, decode, decodeMisc]

/-! ## The encoder inverts the decoder (R77) -/

/-- In class 8 the decoded instruction says x, y and the function code. -/
theorem encode_of_decodeAlu {x y : Reg} {n : BitVec 4} {i : Instr} (h : decodeAlu x y n = .ok i) :
    encode i = formXYN 0x8#4 x y n ∧ i.wellFormed = true := by
  unfold decodeAlu at h
  split at h <;> cases h
  all_goals
    next hn => exact ⟨congrArg (formXYN 0x8#4 x y) (BitVec.eq_of_toNat_eq hn.symm), rfl⟩

/-- In class E the decoded instruction says x and the function code. -/
theorem encode_of_decodeKey {x : Reg} {kk : Byte} {i : Instr} (h : decodeKey x kk = .ok i) :
    encode i = formXKK 0xE#4 x kk ∧ i.wellFormed = true := by
  unfold decodeKey at h
  split at h <;> cases h
  all_goals
    next hk => exact ⟨congrArg (formXKK 0xE#4 x) (BitVec.eq_of_toNat_eq hk.symm), rfl⟩

/-- In class F the decoded instruction says x and the function code. -/
theorem encode_of_decodeMisc {x : Reg} {kk : Byte} {i : Instr} (h : decodeMisc x kk = .ok i) :
    encode i = formXKK 0xF#4 x kk ∧ i.wellFormed = true := by
  unfold decodeMisc at h
  split at h <;> cases h
  all_goals
    next hk => exact ⟨congrArg (formXKK 0xF#4 x) (BitVec.eq_of_toNat_eq hk.symm), rfl⟩

theorem encode_of_decode {i : Instr} (h : decode op = .ok i) :
    encode i = op ∧ i.wellFormed = true := by
  have hlt : (classOf op).toNat < 16 := (classOf op).isLt
  unfold decode at h
  split at h
  case h_1 =>
    split at h
    · next h0 => cases h; exact ⟨h0.symm, rfl⟩
    · split at h
      · next h0 => cases h; exact ⟨h0.symm, rfl⟩
      · cases h
  case h_2 hc | h_3 hc | h_11 hc | h_12 hc =>
    cases h
    exact ⟨formNNN_of_class (BitVec.eq_of_toNat_eq hc), rfl⟩
  case h_4 hc | h_5 hc | h_7 hc | h_8 hc | h_13 hc =>
    cases h
    exact ⟨formXKK_of_class (BitVec.eq_of_toNat_eq hc), rfl⟩
  case h_6 hc | h_10 hc =>
    split at h
    · next hn => cases h; exact ⟨formXYN_of_code (BitVec.eq_of_toNat_eq hc) hn, rfl⟩
    · cases h
  case h_9 hc =>
    obtain ⟨he, hw⟩ := encode_of_decodeAlu h
    exact ⟨he.trans (formXYN_of_code (BitVec.eq_of_toNat_eq hc) rfl), hw⟩
  case h_14 hc =>
    cases h
    exact ⟨formXYN_of_code (BitVec.eq_of_toNat_eq hc) (by simp),
      decide_eq_true (Nat.le_of_lt_succ (fieldN op).isLt)⟩
  case h_15 hc =>
    obtain ⟨he, hw⟩ := encode_of_decodeKey h
    exact ⟨he.trans (formXKK_of_class (BitVec.eq_of_toNat_eq hc)), hw⟩
  case h_16 =>
    have hc : (classOf op).toNat = 0xF := by grind
    obtain ⟨he, hw⟩ := encode_of_decodeMisc h
    exact ⟨he.trans (formXKK_of_class (BitVec.eq_of_toNat_eq hc)), hw⟩

/-! ## The opcode map (R78, R80) -/

theorem rowOf_mem_opcodeTable (i : Instr) : rowOf i ∈ opcodeTable := by
  cases i <;> simp [opcodeTable, rowOf]

theorem exists_rowOf_of_mem {r : OpcodeRow} (h : r ∈ opcodeTable) : ∃ i, rowOf i = r := by
  revert r
  simp [opcodeTable]

/-- A mask that is all ones on a slice compares that slice of the word. -/
theorem extractLsb'_eq_of_and_eq {m v : Word} {lo k : Nat}
    (hm : m.extractLsb' lo k = BitVec.allOnes k) (h : op &&& m = v) :
    op.extractLsb' lo k = v.extractLsb' lo k := by
  rw [← h, BitVec.extractLsb'_and, hm, BitVec.and_allOnes]

/-- A word that matches the row of some instruction decodes to an instruction of that row: the mask
compares exactly what the decoder does. -/
theorem decode_of_matches {i : Instr} (h : op &&& (rowOf i).mask = (rowOf i).value) :
    ∃ j, decode op = .ok j ∧ rowOf j = rowOf i := by
  cases i with
  | cls | ret =>
    have hop : op = _ := BitVec.and_allOnes.symm.trans h
    subst hop
    exact ⟨_, rfl, rfl⟩
  | jp | call | ldI | jpV0 | seImm | sneImm | ldImm | addImm | rnd | drw =>
    simp only [rowOf] at h
    have hc : classOf op = _ := extractLsb'_eq_of_and_eq (by decide) h
    simp [decode, hc, rowOf]
  | seReg | sneReg | ldReg | orReg | andReg | xorReg | addReg | sub | shr | subn | shl =>
    simp only [rowOf] at h
    have hc : classOf op = _ := extractLsb'_eq_of_and_eq (by decide) h
    have hn : fieldN op = _ := extractLsb'_eq_of_and_eq (by decide) h
    simp [decode, decodeAlu, hc, hn, rowOf]
  | skp | sknp | ldVxDt | ldDtVx | ldVxK | ldStVx | addI | ldF | ldB | ldMemVx | ldVxMem =>
    simp only [rowOf] at h
    have hc : classOf op = _ := extractLsb'_eq_of_and_eq (by decide) h
    have hk : fieldKK op = _ := extractLsb'_eq_of_and_eq (by decide) h
    simp [decode, decodeKey, decodeMisc, hc, hk, rowOf]

/-! ## The function codes without an instruction (R83) -/

theorem decodeAlu_error_iff (x y : Reg) (n : BitVec 4) :
    (∃ e, decodeAlu x y n = .error e) ↔ n.toNat ∈ [0x8, 0x9, 0xA, 0xB, 0xC, 0xD, 0xF] := by
  have hn : n.toNat < 16 := n.isLt
  unfold decodeAlu
  generalize n.toNat = k at hn
  interval_cases k <;> simp

theorem decodeKey_error_iff (x : Reg) (kk : Byte) :
    (∃ e, decodeKey x kk = .error e) ↔ kk.toNat ∉ [0x9E, 0xA1] := by
  unfold decodeKey
  split <;> simp_all

theorem decodeMisc_error_iff (x : Reg) (kk : Byte) :
    (∃ e, decodeMisc x kk = .error e) ↔
      kk.toNat ∉ [0x07, 0x0A, 0x15, 0x18, 0x1E, 0x29, 0x33, 0x55, 0x65] := by
  unfold decodeMisc
  split <;> simp_all

end Words

/-- Every instruction has its lemma of the family EncodesRow. -/
theorem Laws.EncodesRow.statement_all (i : Instr) : Laws.EncodesRow.Statement i :=
  match i with
  | .cls => cls
  | .ret => ret
  | .jp nnn => jp nnn
  | .call nnn => call nnn
  | .seImm x kk => seImm x kk
  | .sneImm x kk => sneImm x kk
  | .seReg x y => seReg x y
  | .sneReg x y => sneReg x y
  | .ldImm x kk => ldImm x kk
  | .addImm x kk => addImm x kk
  | .ldReg x y => ldReg x y
  | .orReg x y => orReg x y
  | .andReg x y => andReg x y
  | .xorReg x y => xorReg x y
  | .addReg x y => addReg x y
  | .sub x y => sub x y
  | .shr x y => shr x y
  | .subn x y => subn x y
  | .shl x y => shl x y
  | .ldI nnn => ldI nnn
  | .jpV0 nnn => jpV0 nnn
  | .rnd x kk => rnd x kk
  | .drw x y n => drw x y n
  | .skp x => skp x
  | .sknp x => sknp x
  | .ldVxDt x => ldVxDt x
  | .ldDtVx x => ldDtVx x
  | .ldVxK x => ldVxK x
  | .ldStVx x => ldStVx x
  | .addI x => addI x
  | .ldF x => ldF x
  | .ldB x => ldB x
  | .ldMemVx x => ldMemVx x
  | .ldVxMem x => ldVxMem x

/-- The word of an instruction matches its row (R78). -/
theorem encode_and_mask (i : Instr) : encode i &&& (rowOf i).mask = (rowOf i).value :=
  eq_of_beq (Laws.EncodesRow.statement_all i)

end Sys2Proof

namespace Sys2Proof.Machine

/-! ## Fetch and the answer of a STEP -/

theorem opcodeOfBytes_toNat (hi lo : Byte) :
    (opcodeOfBytes hi lo).toNat = hi.toNat * 256 + lo.toNat := by
  rw [opcodeOfBytes, BitVec.toNat_append, ← Nat.shiftLeft_add_eq_or_of_lt lo.isLt,
    Nat.shiftLeft_eq]

theorem State.fetch_eq_opcodeAtPc {s : State} (h : s.pc.toNat ≤ 0xFFE) :
    s.fetch = .ok s.opcodeAtPc :=
  s.fetch_of_inRange h

/-- No instruction stops the model: a fault of the block is a next state (R201). -/
theorem exec_answers_next (i : Instr) (s : State) : ∃ t, exec i s = .next t := by
  cases i with
  | ret | call | drw | ldVxK | ldB | ldMemVx | ldVxMem =>
    simp only [exec, execRet, execCall, execDrw, execLdVxK, execLdB, execLdMemVx, execLdVxMem]
    split <;> exact ⟨_, rfl⟩
  | _ => exact ⟨_, rfl⟩

theorem step_answers_next (s : State) : ∃ t, step s = .next t := by
  cases hh : s.halted with
  | true => exact ⟨s, step_of_halted s hh⟩
  | false =>
    cases hf : s.fetch with
    | error a => exact ⟨_, step_of_fetch_error s a hh hf⟩
    | ok op =>
      cases hd : decode op with
      | error e => exact ⟨_, step_of_unmatched s op e hh hf hd⟩
      | ok i =>
        obtain ⟨t, ht⟩ := exec_answers_next i s.advancePc
        exact ⟨_, step_of_decoded s t op i hh hf hd ht⟩

/-- A fault taken at the address of its instruction changes FAULT only (R201). -/
theorem State.recordFault_at_pc (s : State) (c : FaultCode) (op a : Word) :
    s.recordFault c s.pc op a = { s with fault := ⟨c, s.pc, op, a⟩ } :=
  rfl

/-- An unmatched opcode does nothing with STRICT = false (R84). -/
theorem State.runUnmatched_of_lenient {s : State} (hs : s.params.strict = false) (op : Word) :
    s.runUnmatched op = s := by
  simp [State.runUnmatched, hs]

/-- With STRICT = true an unmatched opcode takes PC back and changes FAULT only (R84). -/
theorem State.runUnmatched_of_strict {s : State} (hs : s.params.strict = true) (op : Word) :
    s.advancePc.runUnmatched op = { s with fault := ⟨.unknownOpcode, s.pc, op, 0⟩ } := by
  have hs' : s.advancePc.params.strict = true := hs
  rw [State.runUnmatched, if_pos hs', State.raise, s.pc_advance_sub]
  rfl

theorem State.finishStep_of_halted {s : State} (h : s.halted = true) : s.finishStep = s :=
  if_pos h

theorem State.finishStep_of_running {s : State} (h : s.halted = false) :
    s.finishStep = s.advancePrescale := by
  simp [State.finishStep, h]

end Sys2Proof.Machine
end

section
/-! The obligations of spec/30_encoding.md. -/

namespace Sys2Proof.Proofs

open Sys2Proof.Machine

/-- Settles O2: `decode_encode`. -/
theorem decodeOfEncode : Obligations.DecodeOfEncode :=
  fun _ => decode_encode

/-- Settles O3: `encode_of_decode`. -/
theorem encodeOfDecode : Obligations.EncodeOfDecode :=
  fun _ _ => encode_of_decode

/-- Settles O4: a word that matches a row decodes to an instruction of that row, and the decoder
gives one answer. -/
theorem decoderSelectsTheMatchingRow : Obligations.DecoderSelectsTheMatchingRow := by
  refine fun op => ⟨fun i hi => ?_, fun e he r hr h => ?_⟩
  · obtain ⟨rfl, -⟩ := encode_of_decode hi
    refine ⟨rowOf_mem_opcodeTable i, encode_and_mask i, fun r hr h => ?_⟩
    obtain ⟨k, rfl⟩ := exists_rowOf_of_mem hr
    obtain ⟨j, hj, hrow⟩ := decode_of_matches h
    cases hi.symm.trans hj
    exact hrow.symm
  · obtain ⟨k, rfl⟩ := exists_rowOf_of_mem hr
    obtain ⟨j, hj, -⟩ := decode_of_matches h
    cases he.symm.trans hj

/-- Settles O5, by the class nibble; classes 8, E and F by their function codes. -/
theorem unmatchedWordsByClass : Obligations.UnmatchedWordsByClass := by
  intro op
  have hlt : (classOf op).toNat < 16 := (classOf op).isLt
  rw [← classOf_toNat, ← fieldN_toNat, ← fieldKK_toNat]
  unfold decode
  split
  case h_1 hc =>
    rw [hc]
    split
    · next h0 => simp [h0]
    · next h0 => split <;> simp [*]
  case h_6 hc | h_10 hc =>
    have hn : (fieldN op).toNat = 0 ↔ fieldN op = 0#4 := BitVec.toNat_inj (y := 0#4)
    rw [hc]
    split <;> simp [*]
  case h_9 hc => rw [decodeAlu_error_iff, hc]; simp
  case h_15 hc => rw [decodeKey_error_iff, hc]; simp
  case h_16 =>
    have hc : (classOf op).toNat = 0xF := by grind
    rw [decodeMisc_error_iff, hc]
    simp
  all_goals next hc => rw [hc]; simp

/-- Settles O10: `step_answers_next`. -/
theorem everyStepAnswersNext : Obligations.EveryStepAnswersNext :=
  step_answers_next

/-- Settles O1: the decoder is evaluated at the 34 words. -/
theorem wordsOfTheOpcodeMapDecode : Obligations.WordsOfTheOpcodeMapDecode := by
  unfold Obligations.WordsOfTheOpcodeMapDecode
  and_intros <;> decide

/-- Settles O6: the instruction answers a next state, so the STEP ends with `finishStep`. -/
theorem stepRunsTheDecodedInstruction : Obligations.StepRunsTheDecodedInstruction := by
  intro s i hh hpc hd
  obtain ⟨t, ht⟩ := exec_answers_next i s.advancePc
  have ht' : exec i (s.setPc (s.pc + 2)) = .next t := ht
  rw [step_of_decoded s t _ i hh (State.fetch_eq_opcodeAtPc hpc) hd ht, ht']

/-- Settles O7: the value of the two bytes, and the first address a failed fetch reports. -/
theorem fetchReadsTwoBytesBigEndian : Obligations.FetchReadsTwoBytesBigEndian := by
  intro s
  refine ⟨fun hpc => ⟨_, s.fetch_of_inRange hpc, opcodeOfBytes_toNat _ _⟩, fun hh hpc => ?_⟩
  rw [step_of_fetch_error s _ hh (s.fetch_of_outOfRange hpc), State.raiseFetch,
    State.recordFault_at_pc]

/-- Settles O8: `runUnmatched` gives the state back or raises, by STRICT. -/
theorem unmatchedOpcodeIsNoOpOrFault : Obligations.UnmatchedOpcodeIsNoOpOrFault := by
  intro s e hh hpc hd
  rw [step_of_unmatched s _ e hh (State.fetch_eq_opcodeAtPc hpc) hd]
  refine ⟨fun hs => ?_, fun hs => ?_⟩
  · rw [State.runUnmatched_of_lenient (s := s.advancePc) hs,
      State.finishStep_of_running (s := s.advancePc) hh, State.advancePc]
  · rw [State.runUnmatched_of_strict hs, State.finishStep_of_halted rfl]

end Sys2Proof.Proofs
end

section
/-! SUPPORT. Control transfer: jump targets, the top of the stack, CALL and RET by the branch they
take, and the frames of jumps and skips. -/

namespace Sys2Proof.Machine

/-! ## Targets and the stack -/

@[simp] theorem zextAddr_toNat (nnn : BitVec 12) : (zextAddr nnn).toNat = nnn.toNat :=
  BitVec.toNat_setWidth_of_le (by decide)

@[simp] theorem zextByte_toNat (b : Byte) : (zextByte b).toNat = b.toNat :=
  BitVec.toNat_setWidth_of_le (by decide)

/-- A 12-bit address plus a byte stays below 65536 (R103). -/
theorem zextAddr_add_zextByte_toNat (nnn : BitVec 12) (b : Byte) :
    (zextAddr nnn + zextByte b).toNat = nnn.toNat + b.toNat := by
  rw [BitVec.toNat_add, zextAddr_toNat, zextByte_toNat]
  omega

/-- The top of the stack is a matter of SP and STACK alone. -/
theorem State.stackTop_congr {s t : State} (hsp : s.sp = t.sp) (hst : s.stack = t.stack) :
    s.stackTop = t.stackTop := by
  simp only [State.stackTop, hsp, hst]

theorem State.stackTop_push (s : State) (a : Word) : (s.push a).stackTop = a :=
  Vector.getElem_set_self _

theorem State.stack_push_other (s : State) (a : Word) {j : Fin 16} (h : j ≠ stackSlot (s.sp + 1)) :
    (s.push a).stack[j] = s.stack[j] :=
  Vector.getElem_set_ne (stackSlot (s.sp + 1)).isLt j.isLt fun e => h (Fin.ext e.symm)

/-! ## CALL and RET (R100, R102) -/

theorem exec_call_of_room {s : State} (h : s.sp ≠ 16) (nnn : BitVec 12) :
    exec (.call nnn) s = .next ((s.push s.pc).setPc (zextAddr nnn)) :=
  if_neg h

theorem exec_call_of_full {s : State} (h : s.sp = 16) (nnn : BitVec 12) :
    exec (.call nnn) s = .next (s.raise .stackOverflow (encode (.call nnn)) 0) :=
  if_pos h

theorem exec_ret_of_nonempty {s : State} (h : s.sp ≠ 0) :
    exec .ret s = .next (s.setPc s.stackTop).dropTop :=
  if_neg h

theorem exec_ret_of_empty {s : State} (h : s.sp = 0) :
    exec .ret s = .next (s.raise .stackUnderflow (encode .ret) 0) :=
  if_pos h

/-! ## Jumps and skips (R101, R103 to R107, R109) -/

theorem State.setPc_frame (s : State) (a : Word) : Frame [] [.pc] s (s.setPc a) :=
  (Effect.setPc (by simp) a).frame

theorem State.skipIf_beq_pc (s : State) (a b : Byte) :
    (s.skipIf (a == b)).pc = if a = b then s.pc + 2 else s.pc := by
  simp

theorem State.skipIf_bne_pc (s : State) (a b : Byte) :
    (s.skipIf (a != b)).pc = if a = b then s.pc else s.pc + 2 := by
  simp

theorem State.skipIf_frame (s : State) (c : Bool) : Frame [] [.pc] s (s.skipIf c) :=
  (Effect.skipIf (by simp) c).frame

end Sys2Proof.Machine
end

section
/-! The obligations of spec/40_flow.md. -/

namespace Sys2Proof.Proofs

open Sys2Proof.Machine

/-- Settles O26: the RET finds SP one above the CALL's, so not 0, and the pushed PC on top. -/
theorem returnUndoesCall : Obligations.ReturnUndoesCall := by
  intro nnn s t u hlt hcall hsp hstack
  have hroom : s.sp ≠ 16 := by bv_omega
  cases (exec_call_of_room hroom nnn).symm.trans hcall
  have husp : u.sp = s.sp + 1 := hsp
  have hne : u.sp ≠ 0 := by bv_omega
  have htop : u.stackTop = s.pc := (State.stackTop_congr hsp hstack).trans (s.stackTop_push s.pc)
  refine ⟨_, exec_ret_of_nonempty hne, htop, ?_⟩
  simp [husp]

/-- Settles O24, by whether SP is 16. -/
theorem callPushesTheReturnAddress : Obligations.CallPushesTheReturnAddress := by
  intro nnn s
  refine ⟨decode_encode (i := .call nnn) rfl, fun hroom => ?_,
    fun hfull => exec_call_of_full hfull nnn⟩
  have hframe : Frame [] [.pc, .sp, .stack] s ((s.push s.pc).setPc (zextAddr nnn)) :=
    Effect.frame (.trans (.push (by simp) (by simp) hroom _) (.setPc (by simp) _))
  exact ⟨_, exec_call_of_room hroom nnn, rfl, s.stackTop_push s.pc, zextAddr_toNat nnn,
    fun _ hj => s.stack_push_other s.pc fun e => hj (congrArg Fin.val e), hframe⟩

/-- Settles O25, by whether SP is 0. -/
theorem returnPopsTheStack : Obligations.ReturnPopsTheStack := by
  intro s
  refine ⟨decode_encode (i := .ret) rfl, fun hne => ?_, exec_ret_of_empty⟩
  have hframe : Frame [] [.pc, .sp] s (s.setPc s.stackTop).dropTop :=
    Effect.frame (.trans (.setPc (by simp) _) (.dropTop (by simp) hne))
  exact ⟨_, exec_ret_of_nonempty hne, rfl, rfl, hframe⟩

/-- Settles O27: `zextAddr` keeps the value of nnn. -/
theorem jumpIsAbsolute : Obligations.JumpIsAbsolute := fun nnn s =>
  ⟨decode_encode (i := .jp nnn) rfl, _, rfl, zextAddr_toNat nnn, s.setPc_frame _⟩

/-- Settles O28: the 16-bit sum of nnn and V0 does not wrap. -/
theorem indexedJumpAddsV0 : Obligations.IndexedJumpAddsV0 := fun nnn s =>
  ⟨decode_encode (i := .jpV0 nnn) rfl, _, rfl, zextAddr_add_zextByte_toNat nnn _, s.setPc_frame _⟩

/-- Settles O29: SE is a `skipIf` on equality, SNE on inequality. -/
theorem comparesSkipOneInstruction : Obligations.ComparesSkipOneInstruction := by
  intro x y kk s
  exact ⟨⟨decode_encode (i := .seImm x kk) rfl, _, rfl, s.skipIf_beq_pc _ _, s.skipIf_frame _⟩,
    ⟨decode_encode (i := .sneImm x kk) rfl, _, rfl, s.skipIf_bne_pc _ _, s.skipIf_frame _⟩,
    ⟨decode_encode (i := .seReg x y) rfl, _, rfl, s.skipIf_beq_pc _ _, s.skipIf_frame _⟩,
    ⟨decode_encode (i := .sneReg x y) rfl, _, rfl, s.skipIf_bne_pc _ _, s.skipIf_frame _⟩⟩

end Sys2Proof.Proofs
end

section
/-! SUPPORT. Register loads and ALU: the numeric value of a shifted-out bit, a write of VF followed
by a write of Vx, and what each flag-writing instruction leaves in Vx and in VF. -/

namespace Sys2Proof.Machine

/-! ## The bits shifted out, as numbers (R128, R130) -/

theorem lowBitFlag_toNat (a : Byte) : (lowBitFlag a).toNat = a.toNat % 2 := by
  rw [lowBitFlag, BitVec.toNat_and]
  exact Nat.and_one_is_mod a.toNat

theorem highBitFlag_toNat (a : Byte) : (highBitFlag a).toNat = a.toNat / 128 := by
  have hlt : a.toNat / 128 < 2 := by omega
  calc (highBitFlag a).toNat
      _ = (a >>> 7).toNat % 2 := lowBitFlag_toNat (a >>> 7)
      _ = a.toNat / 128 % 2 := by rw [BitVec.toNat_ushiftRight, Nat.shiftRight_eq_div_pow]
      _ = a.toNat / 128 := Nat.mod_eq_of_lt hlt

/-! ## Register writes -/

theorem State.setReg_frame (s : State) (x : Reg) (b : Byte) : Frame [x] [] s (s.setReg x b) :=
  (Effect.setReg (by simp) b).frame

/-- The flag of an instruction that writes VF and then Vx stays unless x = F (R12). -/
theorem State.vf_setVf_setReg (s : State) {x : Reg} (hx : x ≠ VF) (f b : Byte) :
    ((s.setReg VF f).setReg x b).reg VF = f := by
  rw [State.reg_setReg_other _ b hx.symm, State.reg_setReg_same]

theorem State.setVf_setReg_frame (s : State) (x : Reg) (f b : Byte) :
    Frame [x, VF] [] s ((s.setReg VF f).setReg x b) :=
  (Effect.trans (.setReg (by simp) f) (.setReg (by simp) b)).frame

/-! ## Vx and VF after each flag-writing instruction (R126 to R130)

ADD reads Vx and Vy before it writes VF; the others read VF back where it is an operand. -/

section FlagWriters
variable {x y : Reg} {s t : State}

theorem exec_addReg_vx (h : exec (.addReg x y) s = .next t) :
    (t.reg x).toNat = ((s.reg x).toNat + (s.reg y).toNat) % 256 := by
  cases h
  rw [State.reg_setReg_same, BitVec.toNat_ofNat]

theorem exec_addReg_vf (h : exec (.addReg x y) s = .next t) (hx : x ≠ VF) :
    t.reg VF = carryFlag (exactSum (s.reg x) (s.reg y)) := by
  cases h
  exact s.vf_setVf_setReg hx _ _

theorem exec_sub_vx (h : exec (.sub x y) s = .next t) :
    t.reg x =
      (if x = VF then greaterFlag (s.reg x) (s.reg y) else s.reg x) -
        (if y = VF then greaterFlag (s.reg x) (s.reg y) else s.reg y) := by
  cases h
  rw [State.reg_setReg_same, State.reg_setReg, State.reg_setReg]

theorem exec_sub_vf (h : exec (.sub x y) s = .next t) (hx : x ≠ VF) :
    t.reg VF = greaterFlag (s.reg x) (s.reg y) := by
  cases h
  exact s.vf_setVf_setReg hx _ _

theorem exec_subn_vx (h : exec (.subn x y) s = .next t) :
    t.reg x =
      (if y = VF then greaterFlag (s.reg y) (s.reg x) else s.reg y) -
        (if x = VF then greaterFlag (s.reg y) (s.reg x) else s.reg x) := by
  cases h
  rw [State.reg_setReg_same, State.reg_setReg, State.reg_setReg]

theorem exec_subn_vf (h : exec (.subn x y) s = .next t) (hx : x ≠ VF) :
    t.reg VF = greaterFlag (s.reg y) (s.reg x) := by
  cases h
  exact s.vf_setVf_setReg hx _ _

theorem exec_shr_vx (h : exec (.shr x y) s = .next t) :
    (t.reg x).toNat = (if x = VF then (s.reg x).toNat % 2 else (s.reg x).toNat) / 2 := by
  cases h
  rw [State.reg_setReg_same, BitVec.toNat_ushiftRight, Nat.shiftRight_eq_div_pow,
    State.reg_setReg, apply_ite BitVec.toNat, lowBitFlag_toNat]

theorem exec_shr_vf (h : exec (.shr x y) s = .next t) (hx : x ≠ VF) :
    (t.reg VF).toNat = (s.reg x).toNat % 2 := by
  cases h
  rw [s.vf_setVf_setReg hx, lowBitFlag_toNat]

theorem exec_shl_vx (h : exec (.shl x y) s = .next t) :
    (t.reg x).toNat =
      (if x = VF then (s.reg x).toNat / 128 else (s.reg x).toNat) * 2 % 256 := by
  cases h
  rw [State.reg_setReg_same, BitVec.toNat_shiftLeft, Nat.shiftLeft_eq, State.reg_setReg,
    apply_ite BitVec.toNat, highBitFlag_toNat]

theorem exec_shl_vf (h : exec (.shl x y) s = .next t) (hx : x ≠ VF) :
    (t.reg VF).toNat = (s.reg x).toNat / 128 := by
  cases h
  rw [s.vf_setVf_setReg hx, highBitFlag_toNat]

end FlagWriters

end Sys2Proof.Machine
end

section
/-! The obligations of spec/41_alu.md. -/

namespace Sys2Proof.Proofs

open Sys2Proof.Machine

/-- Settles O30: each of the six is one `setReg` of Vx. -/
theorem loadsAndLogicWriteVxOnly : Obligations.LoadsAndLogicWriteVxOnly := by
  intro x y kk s
  have hadd : ((s.setReg x (s.reg x + kk)).reg x).toNat = ((s.reg x).toNat + kk.toNat) % 256 := by
    rw [State.reg_setReg_same, BitVec.toNat_add]
  exact
   ⟨⟨decode_encode (i := .ldImm x kk) rfl, _, rfl, s.reg_setReg_same x _, s.setReg_frame x _⟩,
    ⟨decode_encode (i := .addImm x kk) rfl, _, rfl, hadd, s.setReg_frame x _⟩,
    ⟨decode_encode (i := .ldReg x y) rfl, _, rfl, s.reg_setReg_same x _, s.setReg_frame x _⟩,
    ⟨decode_encode (i := .orReg x y) rfl, _, rfl, s.reg_setReg_same x _, s.setReg_frame x _⟩,
    ⟨decode_encode (i := .andReg x y) rfl, _, rfl, s.reg_setReg_same x _, s.setReg_frame x _⟩,
    ⟨decode_encode (i := .xorReg x y) rfl, _, rfl, s.reg_setReg_same x _, s.setReg_frame x _⟩⟩

/-- Settles O31: the sum is of the old values, and is written last. -/
theorem addSetsTheCarry : Obligations.AddSetsTheCarry := fun x y s =>
  ⟨decode_encode (i := .addReg x y) rfl, _, rfl, exec_addReg_vx rfl, exec_addReg_vf rfl,
    s.setVf_setReg_frame x _ _⟩

/-- Settles O32: f and g are the `greaterFlag` of the operands, either way round. -/
theorem subtractionsSetNotBorrowFirst : Obligations.SubtractionsSetNotBorrowFirst := by
  rintro x y s f g rfl rfl
  exact ⟨⟨decode_encode (i := .sub x y) rfl, _, rfl, exec_sub_vx rfl, exec_sub_vf rfl,
      s.setVf_setReg_frame x _ _⟩,
    ⟨decode_encode (i := .subn x y) rfl, _, rfl, exec_subn_vx rfl, exec_subn_vf rfl,
      s.setVf_setReg_frame x _ _⟩⟩

/-- Settles O33: y is in the word and in no value. -/
theorem shiftsKeepTheBitShiftedOut : Obligations.ShiftsKeepTheBitShiftedOut := fun x y s =>
  ⟨⟨decode_encode (i := .shr x y) rfl, _, rfl, exec_shr_vx (y := y) rfl,
      exec_shr_vf (y := y) rfl, s.setVf_setReg_frame x _ _⟩,
    ⟨decode_encode (i := .shl x y) rfl, _, rfl, exec_shl_vx (y := y) rfl,
      exec_shl_vf (y := y) rfl, s.setVf_setReg_frame x _ _⟩⟩

/-- Settles O34: the values of Vx and VF that O31 to O33 rest on, with VF as an operand. -/
theorem vfAsAnOperandFollowsTheTable : Obligations.VfAsAnOperandFollowsTheTable := by
  intro x y s t hx hy
  refine ⟨exec_addReg_vx, fun h => ⟨exec_addReg_vx h, exec_addReg_vf h hx⟩, fun h => ?addBoth,
    fun h => ?subX, fun h => ⟨exec_sub_vf h hx, ?subY⟩, fun h => ?subBoth,
    fun h => ?subnX, fun h => ⟨exec_subn_vf h hx, ?subnY⟩, fun h => ?subnBoth,
    fun z h => ?shr, fun z h => ?shl⟩
  case addBoth => rw [exec_addReg_vx h, Nat.two_mul]
  case subX => rw [exec_sub_vx h, if_pos rfl, if_neg hy, greaterFlag]
  case subY => rw [exec_sub_vx h, exec_sub_vf h hx, if_neg hx, if_pos rfl]
  case subBoth => exact (exec_sub_vx h).trans (BitVec.sub_self _)
  case subnX => rw [exec_subn_vx h, if_pos rfl, if_neg hy, greaterFlag]
  case subnY => rw [exec_subn_vx h, exec_subn_vf h hx, if_neg hx, if_pos rfl]
  case subnBoth => exact (exec_subn_vx h).trans (BitVec.sub_self _)
  case shr =>
    have hbit : (s.reg VF).toNat % 2 / 2 = 0 := by omega
    exact BitVec.eq_of_toNat_eq ((exec_shr_vx h).trans hbit)
  case shl =>
    rw [exec_shl_vx h, if_pos rfl]
    omega

/-- Settles O35: the one free value is masked by kk, and the draw counted. -/
theorem randomByteIsMasked : Obligations.RandomByteIsMasked := by
  intro x kk s
  have hx : (s.countDraw.setReg x (s.rndByte &&& kk)).reg x = Config.rndByte s.draws &&& kk :=
    State.reg_setReg_same _ x _
  have hmask : (Config.rndByte s.draws &&& kk) &&& ~~~kk = 0 := by
    rw [BitVec.and_assoc, BitVec.and_not_self]
    exact BitVec.and_zero
  have hframe : Frame [x] [.draws] s (s.countDraw.setReg x (s.rndByte &&& kk)) :=
    (Effect.trans (.countDraw (by simp)) (.setReg (by simp) _)).frame
  exact ⟨decode_encode (i := .rnd x kk) rfl, _, rfl, hx, hx.symm ▸ hmask, rfl, hframe⟩

end Sys2Proof.Proofs
end

section
/-! SUPPORT. Index register and memory transfers: where a block access first leaves MEM, the values
written to I, and LD B, LD [I],Vx and LD Vx,[I] by the branch they take. -/

namespace Sys2Proof.Machine

/-! ## Range checks and index values -/

/-- An access of n > 0 bytes that does not fit in MEM first leaves it at 0x1000, or at its base if
that is outside already (R56). -/
theorem firstOutOfRange_of_exceeds {base : Word} {n : Nat} (hn : n ≠ 0)
    (h : 0x1000 < base.toNat + n) :
    firstOutOfRange base n = some (if base.toNat ≤ 0xFFF then 0x1000 else base) := by
  rw [firstOutOfRange_eq_some]
  split
  · next hin =>
    have heq : (0x1000 : Word) = base + BitVec.ofNat 16 (0x1000 - base.toNat) := by
      have hlit : (0x1000 : Word).toNat = 0x1000 := rfl
      apply BitVec.eq_of_toNat_eq
      rw [BitVec.toNat_add, BitVec.toNat_ofNat, hlit]
      omega
    refine ⟨0x1000 - base.toNat, by omega, heq, by decide, fun j hj => ?_⟩
    rw [BitVec.toNat_add, BitVec.toNat_ofNat]
    omega
  · next hout => exact ⟨0, by omega, by simp, by omega, by simp⟩

@[simp] theorem glyphAddress_toNat (b : Byte) : (glyphAddress b).toNat = b.toNat * 5 := by
  rw [glyphAddress, BitVec.toNat_ofNat]
  omega

/-- The I that an in-range block transfer leaves is I + x without a wrap (R145, R146). -/
theorem add_blockStride_toNat {a : Word} {x : Reg} (h : a.toNat + x.val ≤ 0xFFF) :
    (a + blockStride x).toNat = a.toNat + x.val := by
  rw [blockStride, BitVec.toNat_add, BitVec.toNat_ofNat]
  omega

theorem State.setI_frame (s : State) (a : Word) : Frame [] [.i] s (s.setI a) :=
  (Effect.setI (by simp) a).frame

/-! ## LD B,Vx (R144) -/

theorem exec_ldB_of_fits {x : Reg} {s : State} (h : s.i.toNat + 2 ≤ 0xFFF) :
    exec (.ldB x) s = .next (s.writeBytes s.i (decimalDigits (s.reg x))) := by
  have hfits : firstOutOfRange s.i 3 = none := firstOutOfRange_of_fits (Nat.succ_le_succ h)
  simp only [exec, execLdB, hfits]

theorem exec_ldB_of_exceeds {x : Reg} {s : State} (h : 0xFFF < s.i.toNat + 2) :
    exec (.ldB x) s = .next (s.raise .memRangeWrite (encode (.ldB x))
      (if s.i.toNat ≤ 0xFFF then 0x1000 else s.i)) := by
  have hbeyond := firstOutOfRange_of_exceeds (n := 3) (by decide) (Nat.succ_lt_succ h)
  simp only [exec, execLdB, hbeyond]

@[simp] theorem decimalDigits_length (b : Byte) : (decimalDigits b).length = 3 := rfl

/-- After the digits of b are stored from `base` on, they are read back as numbers. -/
theorem State.readByte_writeBytes_decimalDigits (s : State) (base : Word) (b : Byte) :
    ((s.writeBytes base (decimalDigits b)).readByte base).toNat = b.toNat / 100 ∧
    ((s.writeBytes base (decimalDigits b)).readByte (base + 1)).toNat = b.toNat / 10 % 10 ∧
    ((s.writeBytes base (decimalDigits b)).readByte (base + 2)).toNat = b.toNat % 10 := by
  have hread := s.readByte_writeBytes base (decimalDigits b) (by simp)
  have h0 := hread 0 (by simp)
  rw [BitVec.add_zero] at h0
  have h1 : (s.writeBytes base (decimalDigits b)).readByte (base + 1) = _ := hread 1 (by simp)
  have h2 : (s.writeBytes base (decimalDigits b)).readByte (base + 2) = _ := hread 2 (by simp)
  rw [h0, h1, h2]
  simp only [decimalDigits, List.getElem_cons_zero, List.getElem_cons_succ, BitVec.toNat_ofNat]
  omega

/-! ## LD [I],Vx (R145) -/

theorem exec_ldMemVx_of_exceeds {x : Reg} {s : State} (h : 0xFFF < s.i.toNat + x.val) :
    exec (.ldMemVx x) s = .next (s.raise .memRangeWrite (encode (.ldMemVx x))
      (if s.i.toNat ≤ 0xFFF then 0x1000 else s.i)) := by
  have hbeyond := firstOutOfRange_of_exceeds (n := blockLength x) (Nat.succ_ne_zero _)
    (Nat.succ_lt_succ h)
  simp only [exec, execLdMemVx, hbeyond]

/-- A byte at none of base, base + 1, …, base + x keeps its value when V0 to Vx are stored there. -/
theorem State.readByte_writeBytes_regsUpTo_other (s : State) {base a : Word} {x : Reg}
    (h : ∀ k : Reg, k ≤ x → a ≠ base + BitVec.ofNat 16 k.val) :
    (s.writeBytes base (s.regsUpTo (blockLength x))).readByte a = s.readByte a := by
  apply s.readByte_writeBytes_other
  intro k hk
  rw [State.regsUpTo_length, blockLength] at hk
  exact h ⟨k, by omega⟩ (Nat.le_of_lt_succ hk)

theorem State.writeBytes_setI_frame (s : State) (a b : Word) (bs : List Byte) :
    Frame [] [.i, .mem] s ((s.writeBytes a bs).setI b) := by
  constructor <;> simp

/-! ## LD Vx,[I] (R146) -/

theorem exec_ldVxMem_of_fits {x : Reg} {s : State} (h : s.i.toNat + x.val ≤ 0xFFF) :
    exec (.ldVxMem x) s =
      .next ((s.setRegsFrom 0 (s.readBytes s.i (blockLength x))).setI (s.i + blockStride x)) := by
  have hfits : firstOutOfRange s.i (blockLength x) = none :=
    firstOutOfRange_of_fits (Nat.succ_le_succ h)
  simp only [exec, execLdVxMem, hfits]

theorem exec_ldVxMem_of_exceeds {x : Reg} {s : State} (h : 0xFFF < s.i.toNat + x.val) :
    exec (.ldVxMem x) s = .next (s.raise .memRangeRead (encode (.ldVxMem x))
      (if s.i.toNat ≤ 0xFFF then 0x1000 else s.i)) := by
  have hbeyond := firstOutOfRange_of_exceeds (n := blockLength x) (Nat.succ_ne_zero _)
    (Nat.succ_lt_succ h)
  simp only [exec, execLdVxMem, hbeyond]

/-- After V0 to Vx are loaded from `base` on, V[k] is the byte at base + k. -/
theorem State.reg_setRegsFrom_readBytes (s : State) (base : Word) {k x : Reg} (h : k ≤ x) :
    (s.setRegsFrom 0 (s.readBytes base (blockLength x))).reg k =
      s.readByte (base + BitVec.ofNat 16 k.val) := by
  have hlen : blockLength x ≤ 16 := x.isLt
  have hk : k.val < blockLength x := Nat.lt_succ_of_le h
  rw [s.reg_setRegsFrom 0 _ (by simpa using hlen), dif_pos (by simpa using hk)]
  exact s.readBytes_getElem base _ k.val hk

theorem State.reg_setRegsFrom_readBytes_other (s : State) (base : Word) {k x : Reg} (h : x < k) :
    (s.setRegsFrom 0 (s.readBytes base (blockLength x))).reg k = s.reg k := by
  have hlen : blockLength x ≤ 16 := x.isLt
  have hk : blockLength x ≤ k.val := h
  rw [s.reg_setRegsFrom 0 _ (by simpa using hlen), dif_neg (by simpa using hk)]

theorem State.setRegsFrom_setI_frame (s : State) (a : Word) (n : Nat) (bs : List Byte) :
    Frame (List.finRange 16) [.i] s ((s.setRegsFrom n bs).setI a) := by
  constructor <;> simp

/-- What an address reads is a matter of MEM and the parameters alone. -/
theorem State.readByte_congr {s t : State} (hmem : s.mem = t.mem) (hparams : s.params = t.params)
    (a : Word) : s.readByte a = t.readByte a := by
  simp only [State.readByte, hmem, hparams]

end Sys2Proof.Machine
end

section
/-! The obligations of spec/42_index_memory.md. -/

namespace Sys2Proof.Proofs

open Sys2Proof.Machine

/-- Settles O37, by whether I + 2 is in MEM. -/
theorem bcdStoresThreeDigits : Obligations.BcdStoresThreeDigits := by
  refine fun x s => ⟨decode_encode (i := .ldB x) rfl, fun hfits => ?_, exec_ldB_of_exceeds⟩
  obtain ⟨h0, h1, h2⟩ := s.readByte_writeBytes_decimalDigits s.i (s.reg x)
  refine ⟨_, exec_ldB_of_fits hfits, h0, h1, h2, fun a ha0 ha1 ha2 => ?_, s.writeBytes_frame _ _⟩
  apply s.readByte_writeBytes_other
  intro k hk
  match k, hk with
  | 0, _ => simpa using ha0
  | 1, _ => exact ha1
  | 2, _ => exact ha2

/-- Settles O38, by whether I + x is in MEM. -/
theorem blockStoreWritesV0ToVx : Obligations.BlockStoreWritesV0ToVx := fun x s =>
  ⟨decode_encode (i := .ldMemVx x) rfl,
    fun hfits => ⟨_, exec_ldMemVx_of_fits hfits,
      fun _ hk => s.readByte_writeBytes_regsUpTo s.i hk,
      fun _ ha => s.readByte_writeBytes_regsUpTo_other ha,
      add_blockStride_toNat hfits, s.writeBytes_setI_frame _ _ _⟩,
    exec_ldMemVx_of_exceeds⟩

/-- Settles O39, by whether I + x is in MEM. -/
theorem blockLoadReadsV0ToVx : Obligations.BlockLoadReadsV0ToVx := fun x s =>
  ⟨decode_encode (i := .ldVxMem x) rfl,
    fun hfits => ⟨_, exec_ldVxMem_of_fits hfits,
      fun _ hk => s.reg_setRegsFrom_readBytes s.i hk,
      fun _ hk => s.reg_setRegsFrom_readBytes_other s.i hk,
      add_blockStride_toNat hfits, s.setRegsFrom_setI_frame _ _ _⟩,
    exec_ldVxMem_of_exceeds⟩

/-- Settles O40: V[k] is loaded from I + k, where the store left the old V[k]. -/
theorem blockLoadUndoesBlockStore : Obligations.BlockLoadUndoesBlockStore := by
  intro x s t u hfits hstore hmem hparams hi
  cases (exec_ldMemVx_of_fits hfits).symm.trans hstore
  refine ⟨_, exec_ldVxMem_of_fits (hi ▸ hfits), fun k hk => ?_, by simp [hi]⟩
  calc (u.setRegsFrom 0 (u.readBytes u.i (blockLength x))).reg k
      _ = u.readByte (u.i + BitVec.ofNat 16 k.val) := u.reg_setRegsFrom_readBytes u.i hk
      _ = (s.writeBytes s.i (s.regsUpTo (blockLength x))).readByte
            (s.i + BitVec.ofNat 16 k.val) := by
        rw [hi]
        exact State.readByte_congr hmem hparams _
      _ = s.reg k := s.readByte_writeBytes_regsUpTo s.i hk

/-- Settles O36: each of the three is one `setI`. -/
theorem indexInstructionsWriteIOnly : Obligations.IndexInstructionsWriteIOnly := by
  intro x nnn s
  have hadd : (s.i + zextByte (s.reg x)).toNat = (s.i.toNat + (s.reg x).toNat) % 65536 := by
    rw [BitVec.toNat_add, zextByte_toNat]
  exact
   ⟨⟨decode_encode (i := .ldI nnn) rfl, _, rfl, zextAddr_toNat nnn, s.setI_frame _⟩,
    ⟨decode_encode (i := .addI x) rfl, _, rfl, hadd, s.setI_frame _⟩,
    ⟨decode_encode (i := .ldF x) rfl, _, rfl, glyphAddress_toNat _, s.setI_frame _⟩⟩

end Sys2Proof.Proofs
end

section
/-! SUPPORT. CLS and DRW: the pixels a sprite covers, the framebuffer and the collision flag that a
DRW draws, and DRW by the branch it takes. -/

namespace Sys2Proof.Machine

/-! ## Pixels -/

/-- A framebuffer is its 2048 pixels (R29). -/
theorem fb_eq_of_pixel_eq {fb fb' : Vector PixelRow 32}
    (h : ∀ X < 64, ∀ Y < 32, pixel fb X Y = pixel fb' X Y) : fb = fb' := by
  apply Vector.ext
  intro Y hY
  apply BitVec.eq_of_getLsbD_eq
  intro X hX
  simpa [pixel, Nat.mod_eq_of_lt hX, Nat.mod_eq_of_lt hY] using h X hX Y hY

@[simp] theorem pixel_wrap (fb : Vector PixelRow 32) (X Y : Nat) :
    pixel fb (X % 64) (Y % 32) = pixel fb X Y := by
  simp [pixel]

/-- A pixel that flips a second time exactly when it flipped a first time is back at its value. -/
theorem eq_of_ne_iff_ne {a b c : Bool} (h : a ≠ b ↔ b ≠ c) : a = c := by
  revert a b c
  decide

theorem collisionFlag_eq_one {hit : Bool} : collisionFlag hit = 1 ↔ hit = true := by
  cases hit <;> decide

theorem collisionFlag_eq_zero {hit : Bool} : collisionFlag hit = 0 ↔ hit = false := by
  cases hit <;> decide

/-! ## The cells of a sprite and the pixels it covers (R155) -/

/-- The cells that DRW Vx,Vy,n toggles, before wrapping. -/
def State.drwCells (s : State) (x y : Reg) (n : Nat) : List (Nat × Nat) :=
  spriteCells (s.reg x).toNat (s.reg y).toNat (s.readBytes s.i n)

section Draw
variable {s s' : State} {x y : Reg} {n X Y : Nat}

/-- A pixel is covered when a cell of the sprite wraps to it. -/
theorem exists_drwCells_iff_covers (hX : X < 64) (hY : Y < 32) :
    (∃ c ∈ s.drwCells x y n, SamePixel c (X, Y)) ↔ SpriteCovers s x y n X Y := by
  have hx : X % 64 = X := Nat.mod_eq_of_lt hX
  have hy : Y % 32 = Y := Nat.mod_eq_of_lt hY
  simp only [State.drwCells, mem_spriteCells, State.readBytes_length]
  constructor
  · rintro ⟨_, ⟨row, hrow, col, hcol, hbit, rfl⟩, hsameX, hsameY⟩
    rw [State.readBytes_getElem _ _ _ _ hrow] at hbit
    exact ⟨row, hrow, col, hcol, hbit, hx.symm.trans hsameX.symm, hy.symm.trans hsameY.symm⟩
  · rintro ⟨row, hrow, col, hcol, hbit, hcolX, hrowY⟩
    rw [← State.readBytes_getElem _ _ _ _ hrow] at hbit
    exact ⟨_, ⟨row, hrow, col, hcol, hbit, rfl⟩, hcolX.symm.trans hx.symm,
      hrowY.symm.trans hy.symm⟩

/-- Some cell of a sprite is on exactly when some pixel it covers is on. -/
theorem exists_drwCells_on_iff (s : State) (x y : Reg) (n : Nat) :
    (∃ c ∈ s.drwCells x y n, pixel s.fb c.1 c.2 = true) ↔
      ∃ X < 64, ∃ Y < 32, SpriteCovers s x y n X Y ∧ pixel s.fb X Y = true := by
  constructor
  · rintro ⟨c, hc, hon⟩
    have hX : c.1 % 64 < 64 := Nat.mod_lt _ (by decide)
    have hY : c.2 % 32 < 32 := Nat.mod_lt _ (by decide)
    have hsame : SamePixel c (c.1 % 64, c.2 % 32) :=
      ⟨(Nat.mod_mod _ _).symm, (Nat.mod_mod _ _).symm⟩
    exact ⟨_, hX, _, hY, (exists_drwCells_iff_covers hX hY).1 ⟨c, hc, hsame⟩,
      by rwa [pixel_wrap]⟩
  · rintro ⟨X, hX, Y, hY, hcov, hon⟩
    obtain ⟨c, hc, hsameX, hsameY⟩ := (exists_drwCells_iff_covers hX hY).2 hcov
    refine ⟨c, hc, ?_⟩
    rwa [← pixel_wrap, hsameX, hsameY, pixel_wrap]

/-- What a DRW covers is a matter of I, the two coordinates and the sprite bytes alone. -/
theorem spriteCovers_congr (hi : s'.i = s.i) (hx : s'.reg x = s.reg x) (hy : s'.reg y = s.reg y)
    (hbytes : ∀ k < n,
      s'.readByte (s.i + BitVec.ofNat 16 k) = s.readByte (s.i + BitVec.ofNat 16 k)) :
    SpriteCovers s' x y n X Y ↔ SpriteCovers s x y n X Y := by
  simp only [SpriteCovers, hi, hx, hy]
  exact exists_congr fun row => and_congr_right fun hrow => by rw [hbytes row hrow]

/-! ## What DRW draws (R150, R151, R155) -/

/-- The framebuffer that DRW Vx,Vy,n leaves and whether it collided. -/
def State.drawn (s : State) (x y : Reg) (n : Nat) : Vector PixelRow 32 × Bool :=
  toggleCells (s.drwCells x y n) (s.fb, false)

/-- At most fifteen rows fit in the height of the screen, so no pixel is toggled twice (R156). -/
theorem drwCells_distinct (hn : n ≤ 15) :
    (s.drwCells x y n).Pairwise fun c d => ¬ SamePixel c d :=
  spriteCells_distinct _ _ _ (by rw [State.readBytes_length]; omega)

theorem pixel_drawn (hn : n ≤ 15) (hX : X < 64) (hY : Y < 32) :
    pixel (s.drawn x y n).1 X Y ≠ pixel s.fb X Y ↔ SpriteCovers s x y n X Y :=
  (pixel_toggleCells _ _ (drwCells_distinct hn) X Y).trans (exists_drwCells_iff_covers hX hY)

theorem drawn_collides_iff (hn : n ≤ 15) :
    (s.drawn x y n).2 = true ↔
      ∃ X < 64, ∃ Y < 32, SpriteCovers s x y n X Y ∧ pixel s.fb X Y = true := by
  have hhit := hit_toggleCells (s.drwCells x y n) (s.fb, false) (drwCells_distinct hn)
  rw [State.drawn, hhit, ← exists_drwCells_on_iff]
  simp

/-- DRW of no row, or with all its rows in MEM, writes FB and then VF. -/
theorem exec_drw_of_fits (h : n = 0 ∨ s.i.toNat + n ≤ 0x1000) :
    exec (.drw x y n) s = .next
      ((s.setFb (s.drawn x y n).1).setReg VF (collisionFlag (s.drawn x y n).2)) := by
  have hfits : firstOutOfRange s.i n = none := by
    obtain rfl | h := h
    · rfl
    · exact firstOutOfRange_of_fits h
  simp only [exec, execDrw, hfits, drawRows_eq, State.drawn, State.drwCells]

theorem exec_drw_of_exceeds (hn : n ≠ 0) (h : 0x1000 < s.i.toNat + n) :
    exec (.drw x y n) s = .next (s.raise .memRangeRead (encode (.drw x y n))
      (if s.i.toNat ≤ 0xFFF then 0x1000 else s.i)) := by
  have hbeyond := firstOutOfRange_of_exceeds hn h
  simp only [exec, execDrw, hbeyond]

end Draw

theorem State.setFb_frame (s : State) (fb : Vector PixelRow 32) :
    Frame [] [.fb] s (s.setFb fb) :=
  (Effect.setFb (by simp) fb).frame

theorem State.setFb_setReg_frame (s : State) (fb : Vector PixelRow 32) (x : Reg) (b : Byte) :
    Frame [x] [.fb] s ((s.setFb fb).setReg x b) :=
  (Effect.trans (.setFb (by simp) fb) (.setReg (by simp) b)).frame

end Sys2Proof.Machine
end

section
/-! The obligations of spec/43_display.md. -/

namespace Sys2Proof.Proofs

open Sys2Proof.Machine

/-- Settles O42, by whether the sprite is in MEM. -/
theorem drawTogglesTheCoveredPixels : Obligations.DrawTogglesTheCoveredPixels := by
  intro x y n s hn
  refine ⟨decode_encode (i := .drw x y n) (decide_eq_true hn), fun hfits => ?_,
    exec_drw_of_exceeds⟩
  refine ⟨_, exec_drw_of_fits hfits, fun X hX Y hY => pixel_drawn hn hX hY, fun hon => ?_,
    fun hoff => ?_, s.setFb_setReg_frame _ VF _⟩
  · rw [State.reg_setReg_same, collisionFlag_eq_one, drawn_collides_iff hn]
    exact hon
  · rw [State.reg_setReg_same, collisionFlag_eq_zero, ← Bool.not_eq_true, drawn_collides_iff hn]
    exact hoff

/-- Settles O43: both draws cover the same pixels, and the second toggles back what the first did,
so it collides exactly where the first left a pixel on that was off. -/
theorem drawingTwiceRestoresTheScreen : Obligations.DrawingTwiceRestoresTheScreen := by
  intro x y n s t s' hn hfits hdraw hfb hi hx hy hbytes
  cases (exec_drw_of_fits hfits).symm.trans hdraw
  have hcov (X Y) : SpriteCovers s' x y n X Y ↔ SpriteCovers s x y n X Y :=
    spriteCovers_congr hi hx hy hbytes
  have hfirst {X Y} (hX : X < 64) (hY : Y < 32) :
      pixel s'.fb X Y ≠ pixel s.fb X Y ↔ SpriteCovers s x y n X Y := by
    rw [hfb]
    exact pixel_drawn hn hX hY
  refine ⟨_, exec_drw_of_fits (hi ▸ hfits), fb_eq_of_pixel_eq fun X hX Y hY => ?_, ?_⟩
  · have hsecond : pixel (s'.drawn x y n).1 X Y ≠ pixel s'.fb X Y ↔
        pixel s'.fb X Y ≠ pixel s.fb X Y :=
      (pixel_drawn hn hX hY).trans ((hcov X Y).trans (hfirst hX hY).symm)
    exact eq_of_ne_iff_ne hsecond
  · rw [State.reg_setReg_same, collisionFlag_eq_one, drawn_collides_iff hn, ← hfb]
    refine exists_congr fun X => and_congr_right fun hX =>
      exists_congr fun Y => and_congr_right fun hY => ?_
    rw [hcov, ← hfirst hX hY]
    exact and_congr_left fun hon => by rw [hon, ne_comm, ne_eq, Bool.not_eq_true]

/-- Settles O41: CLS is one `setFb`. -/
theorem clearTurnsEveryPixelOff : Obligations.ClearTurnsEveryPixelOff := fun s =>
  ⟨decode_encode (i := .cls) rfl, _, rfl, fun X Y => congrArg Bool.toNat (pixel_clearFb X Y),
    s.setFb_frame clearFb⟩

end Sys2Proof.Proofs
end

section
/-! SUPPORT. Keys and timers: the skip condition in the spec's own terms, LD Vx,K by the branch it
takes, the frame of a timer load, and the transactions that leave KEYS alone. -/

namespace Sys2Proof.Machine

/-! ## Keys (R170, R174) -/

theorem keyByte_toNat (k : Key) : (keyByte k).toNat = k.val := by
  rw [keyByte, BitVec.toNat_ofNat]
  omega

/-- A value of 16 or more names no key (R172). -/
theorem State.isPressed_iff (s : State) (b : Byte) :
    s.isPressed b = true ↔ b.toNat < 16 ∧ s.keys.getLsbD b.toNat = true := by
  rw [State.isPressed, Bool.and_eq_true, decide_eq_true_eq, Nat.lt_succ_iff]

theorem State.skipIf_isPressed_pc (s : State) (b : Byte) :
    (s.skipIf (s.isPressed b)).pc =
      if b.toNat < 16 ∧ s.keys.getLsbD b.toNat = true then s.pc + 2 else s.pc := by
  simp only [State.skipIf_pc, State.isPressed_iff]

theorem State.skipIf_not_isPressed_pc (s : State) (b : Byte) :
    (s.skipIf (!s.isPressed b)).pc =
      if b.toNat < 16 ∧ s.keys.getLsbD b.toNat = true then s.pc else s.pc + 2 := by
  simp only [State.skipIf_pc, Bool.not_eq_true', ← Bool.not_eq_true, State.isPressed_iff, ite_not]

theorem exec_ldVxK_of_noKey {s : State} (h : s.keys = 0) (x : Reg) :
    exec (.ldVxK x) s = .next (s.setPc (s.pc - 2)) := by
  simp only [exec, execLdVxK, s.heldKeys_eq_nil.2 h]

/-- With a key held, LD Vx,K counts a draw and writes the code of a held key. -/
theorem exec_ldVxK_of_key {s : State} (h : s.keys ≠ 0) (x : Reg) :
    ∃ k : Key, s.keys.getLsbD k.val = true ∧
      exec (.ldVxK x) s = .next (s.countDraw.setReg x (keyByte k)) := by
  obtain ⟨k, ks, hheld⟩ := List.exists_cons_of_ne_nil (s.heldKeys_eq_nil.not.2 h)
  have hmem : chooseKey s.draws k ks ∈ s.heldKeys := hheld ▸ chooseKey_mem s.draws k ks
  exact ⟨_, (s.mem_heldKeys _).1 hmem, by simp only [exec, execLdVxK, hheld]⟩

theorem State.countDraw_setReg_frame (s : State) (x : Reg) (b : Byte) :
    Frame [x] [.draws] s (s.countDraw.setReg x b) :=
  (Effect.trans (.countDraw (by simp)) (.setReg (by simp) b)).frame

/-! ## Timer loads (R176, R177) -/

theorem State.setDt_frame (s : State) (b : Byte) : Frame [] [.dt] s (s.setDt b) :=
  (Effect.setDt (by simp) b).frame

theorem State.setSt_frame (s : State) (b : Byte) : Frame [] [.st] s (s.setSt b) :=
  (Effect.setSt (by simp) b).frame

/-- SOUND follows a write of ST at once (R27, R177). -/
theorem State.sound_setSt (s : State) (b : Byte) : (s.setSt b).sound = decide (b ≠ 0) := by
  rw [Bool.eq_iff_iff]
  simp [State.sound]

/-! ## Transactions that leave KEYS alone (R171) -/

@[simp] theorem State.finishStep_keys (s : State) : s.finishStep.keys = s.keys := by
  obtain h | ⟨-, -, -, h⟩ | ⟨-, -, -, h⟩ := s.finishStep_cases <;> rw [h]

@[simp] theorem State.runUnmatched_keys (s : State) (op : Word) :
    (s.runUnmatched op).keys = s.keys := by
  unfold State.runUnmatched
  split
  · exact s.raise_keys _ _ _
  · rfl

theorem keys_of_step {s t : State} (h : step s = .next t) : t.keys = s.keys := by
  obtain ⟨-, rfl⟩ | ⟨-, a, -, rfl⟩ | ⟨-, op, -, -, -, rfl⟩ | ⟨-, -, i, u, -, -, he, rfl⟩ :=
    step_cases h
  · rfl
  · exact s.raiseFetch_keys a
  · rw [State.finishStep_keys, State.runUnmatched_keys, State.advancePc_keys]
  · rw [State.finishStep_keys, keys_of_exec he, State.advancePc_keys]

theorem State.keys_of_hostTick {s t : State} (h : s.hostTick = .next t) : t.keys = s.keys := by
  unfold State.hostTick at h
  split at h
  · cases h; exact s.tick_keys
  · cases h

theorem State.keys_of_load {s t : State} {image : List Byte} (h : s.load image = .next t) :
    t.keys = s.keys := by
  obtain ⟨-, -, -, rfl⟩ := s.load_next h
  exact s.writeBytes_keys _ _

/-- The two ways RESET answers a next state (R240). -/
theorem State.resetWith_next {s t : State} {image : Option (List Byte)}
    (h : s.resetWith image = .next t) :
    s.params.valid = true ∧
      (image = none ∧ t = s.resetEngine ∨
        ∃ P, image = some P ∧ s.resetEngine.load P = .next t) := by
  unfold State.resetWith at h
  split at h
  · cases h
  · next hv =>
    refine ⟨by simpa using hv, ?_⟩
    split at h
    · cases h; exact .inl ⟨rfl, rfl⟩
    · exact .inr ⟨_, rfl, h⟩

theorem State.keys_of_resetWith {s t : State} {image : Option (List Byte)}
    (h : s.resetWith image = .next t) : t.keys = s.keys := by
  obtain ⟨-, ⟨-, rfl⟩ | ⟨P, -, hload⟩⟩ := s.resetWith_next h
  · exact s.resetEngine_keys
  · exact (State.keys_of_load hload).trans s.resetEngine_keys

end Sys2Proof.Machine
end

section
/-! The obligations of spec/44_timers_keys.md. -/

namespace Sys2Proof.Proofs

open Sys2Proof.Machine

/-- Settles O44: SKP is a `skipIf` on `isPressed`, SKNP on its complement. -/
theorem keySkipsTestTheHeldKey : Obligations.KeySkipsTestTheHeldKey := fun x s =>
  ⟨⟨decode_encode (i := .skp x) rfl, _, rfl, s.skipIf_isPressed_pc _, s.skipIf_frame _⟩,
    ⟨decode_encode (i := .sknp x) rfl, _, rfl, s.skipIf_not_isPressed_pc _, s.skipIf_frame _⟩⟩

/-- Settles O45, by whether KEYS is 0. -/
theorem keyWaitPollsForAHeldKey : Obligations.KeyWaitPollsForAHeldKey := by
  refine fun x s => ⟨decode_encode (i := .ldVxK x) rfl, fun h => exec_ldVxK_of_noKey h x,
    fun h => ?_⟩
  obtain ⟨k, hheld, hexec⟩ := exec_ldVxK_of_key h x
  have hx : ((s.countDraw.setReg x (keyByte k)).reg x).toNat = k.val := by
    rw [State.reg_setReg_same, keyByte_toNat]
  exact ⟨_, hexec, ⟨k, hheld, hx⟩, rfl, s.countDraw_setReg_frame x _⟩

/-- Settles O46: each load is one write of a register or of a timer. -/
theorem timerLoadsCopyOneByte : Obligations.TimerLoadsCopyOneByte := fun x s =>
  ⟨⟨decode_encode (i := .ldVxDt x) rfl, _, rfl, s.reg_setReg_same x _, s.setReg_frame x _⟩,
    ⟨decode_encode (i := .ldDtVx x) rfl, _, rfl, rfl, s.setDt_frame _⟩,
    ⟨decode_encode (i := .ldStVx x) rfl, _, rfl, rfl, s.sound_setSt _, s.setSt_frame _⟩⟩

/-- Settles O47: the bits by `getLsbD_press` and `getLsbD_release`; KEYS kept, by the transaction. -/
theorem keyEventsChangeOneBit : Obligations.KeyEventsChangeOneBit := by
  refine ⟨fun k s => ⟨s.press k, s.release k, rfl, rfl, rfl, rfl,
    fun j => ⟨s.getLsbD_press k j, s.getLsbD_release k j⟩⟩, fun a s t h hpress hrelease => ?_⟩
  cases a with
  | step => exact keys_of_step h
  | tick => exact State.keys_of_hostTick h
  | reset image => exact State.keys_of_resetWith h
  | load image => exact State.keys_of_load h
  | press k => exact absurd rfl (hpress k)
  | release k => exact absurd rfl (hrelease k)

end Sys2Proof.Proofs
end

section
/-! SUPPORT. The end of a STEP by TIMER_MODE, the fault a STEP owes by the check that finds it, and
what the host's transactions do to FAULT and to the invariant. -/

namespace Sys2Proof.Machine

/-! ## Timers and SOUND (R27, R210) -/

/-- A timer saturates at 0 and never wraps to 255 (R210). -/
theorem countDown_toNat (b : Byte) : (countDown b).toNat = b.toNat - 1 := by
  unfold countDown
  split
  · next h0 => rw [h0]; rfl
  · next h0 => bv_omega

/-- A timer counts down where it is nonzero, as R211 writes it. -/
theorem countDown_eq_of_pos (b : Byte) : countDown b = if 0 < b.toNat then b - 1 else b := by
  unfold countDown
  split
  · next h0 => rw [h0]; rfl
  · next h0 => rw [if_pos (by bv_omega)]

theorem State.tick_frame (s : State) : Frame [] [.dt, .st] s s.tick := by
  constructor <;> simp

theorem State.sound_eq (s : State) : s.sound = decide (s.st ≠ 0) :=
  s.sound_setSt s.st

/-! ## What an executed instruction leaves to the end of its STEP (R211) -/

theorem params_of_exec {i : Instr} {s t : State} (h : exec i s = .next t) :
    t.params = s.params := by
  obtain ⟨hf, -, -⟩ | ⟨_, _, -, rfl⟩ := exec_cases h
  · exact hf.params
  · exact s.raise_params _ _ _

theorem prescale_of_exec {i : Instr} {s t : State} (h : exec i s = .next t) :
    t.prescale = s.prescale := by
  obtain ⟨hf, -, -⟩ | ⟨_, _, -, rfl⟩ := exec_cases h
  · exact hf.prescale (prescale_notMem_writableParts i)
  · exact s.raise_prescale _ _ _

theorem State.advancePrescale_of_free {s : State} (h : s.params.timerMode = .free) :
    s.advancePrescale = s := by
  simp only [State.advancePrescale, h]

theorem State.advancePrescale_of_before {s : State} (h : s.params.timerMode = .everyN)
    (hn : s.prescale + 1 ≠ s.params.timerN) :
    s.advancePrescale = { s with prescale := s.prescale + 1 } := by
  simp only [State.advancePrescale, h, if_neg hn]

theorem State.advancePrescale_of_last {s : State} (h : s.params.timerMode = .everyN)
    (hn : s.prescale + 1 = s.params.timerN) :
    s.advancePrescale = { s with prescale := 0 }.tick := by
  simp only [State.advancePrescale, h, if_pos hn]

/-! ## The fault a STEP owes (R200, R204) -/

theorem State.finishStep_halted (s : State) : s.finishStep.halted = s.halted := by
  obtain h | ⟨-, -, -, h⟩ | ⟨-, -, -, h⟩ := s.finishStep_cases <;> rw [h] <;> rfl

/-- A raise by the instruction at PC leaves the state before the STEP with FAULT changed (R201). -/
theorem State.advancePc_raise (s : State) (c : FaultCode) (op a : Word) :
    s.advancePc.raise c op a = { s with fault := ⟨c, s.pc, op, a⟩ } := by
  rw [State.raise, s.pc_advance_sub]
  rfl

/-- An instruction whose own check fails raises that fault; the converse half of `exec_cases`. -/
theorem exec_of_execFaultDue {i : Instr} {s : State} {c : FaultCode} {a : Word}
    (h : ExecFaultDue i s c a) : exec i s = .next (s.raise c (encode i) a) := by
  cases i with
  | ret => obtain ⟨h0, rfl, rfl⟩ := h; exact exec_ret_of_empty h0
  | call nnn => obtain ⟨hfull, rfl, rfl⟩ := h; exact exec_call_of_full hfull nnn
  | drw | ldVxMem | ldB | ldMemVx =>
    obtain ⟨rfl, hbeyond⟩ := h
    have hr := (firstOutOfRange_eq_some _ _ _).2 hbeyond
    simp only [exec, execDrw, execLdVxMem, execLdB, execLdMemVx, blockLength, hr]
  | _ => exact h.elim

/-- No check of an instruction looks at PC. -/
theorem execFaultDue_advancePc {i : Instr} {s : State} {c : FaultCode} {a : Word} :
    ExecFaultDue i s.advancePc c a ↔ ExecFaultDue i s c a := by
  cases i <;> exact Iff.rfl

section FaultDue
variable {s : State} {c : FaultCode} {op a : Word}

theorem faultDue_iff_of_fetch (hpc : 0xFFE < s.pc.toNat) :
    FaultDue s c op a ↔
      c = .memRangeFetch ∧ op = 0 ∧ a = if s.pc = 0xFFF then 0x1000 else s.pc := by
  rw [FaultDue, if_pos hpc]

theorem faultDue_iff_of_unmatched {e : Unmatched} (hpc : s.pc.toNat ≤ 0xFFE)
    (hd : decode s.opcodeAtPc = .error e) :
    FaultDue s c op a ↔
      op = s.opcodeAtPc ∧ s.params.strict = true ∧ c = .unknownOpcode ∧ a = 0 := by
  rw [FaultDue, if_neg (Nat.not_lt.2 hpc)]
  refine and_congr_right ?_
  rintro rfl
  rw [hd]

theorem faultDue_iff_of_decoded {i : Instr} (hpc : s.pc.toNat ≤ 0xFFE)
    (hd : decode s.opcodeAtPc = .ok i) :
    FaultDue s c op a ↔ op = s.opcodeAtPc ∧ ExecFaultDue i s c a := by
  rw [FaultDue, if_neg (Nat.not_lt.2 hpc)]
  refine and_congr_right ?_
  rintro rfl
  rw [hd]

/-- The first half of R201: the owed fault is FAULT of the next state, and nothing else changes. -/
theorem step_of_faultDue (hh : s.halted = false) (h : FaultDue s c op a) :
    step s = .next { s with fault := ⟨c, s.pc, op, a⟩ } := by
  obtain hpc | hpc := Nat.lt_or_ge 0xFFE s.pc.toNat
  · obtain ⟨rfl, rfl, rfl⟩ := (faultDue_iff_of_fetch hpc).1 h
    exact step_of_fetch_error s _ hh (s.fetch_of_outOfRange hpc)
  have hf := State.fetch_eq_opcodeAtPc hpc
  cases hd : decode s.opcodeAtPc with
  | error e =>
    obtain ⟨rfl, hstrict, rfl, rfl⟩ := (faultDue_iff_of_unmatched hpc hd).1 h
    rw [step_of_unmatched s _ e hh hf hd, State.runUnmatched_of_strict hstrict,
      State.finishStep_of_halted rfl]
  | ok i =>
    obtain ⟨rfl, hdue⟩ := (faultDue_iff_of_decoded hpc hd).1 h
    have hhalt := s.advancePc.halted_raise c (encode i) a (hdue.code_and_shape 0 0).1
    rw [step_of_decoded s _ _ i hh hf hd (exec_of_execFaultDue (execFaultDue_advancePc.2 hdue)),
      State.finishStep_of_halted hhalt, State.advancePc_raise, (encode_of_decode hd).1]

/-- A STEP that leaves a halted engine owed a fault. -/
theorem exists_faultDue_of_step_halts {t : State} (hh : s.halted = false) (h : step s = .next t)
    (ht : t.halted = true) : ∃ c op a, FaultDue s c op a := by
  obtain hpc | hpc := Nat.lt_or_ge 0xFFE s.pc.toNat
  · exact ⟨_, _, _, (faultDue_iff_of_fetch hpc).2 ⟨rfl, rfl, rfl⟩⟩
  have hf := State.fetch_eq_opcodeAtPc hpc
  cases hd : decode s.opcodeAtPc with
  | error e =>
    refine ⟨_, _, _, (faultDue_iff_of_unmatched hpc hd).2 ⟨rfl, ?_, rfl, rfl⟩⟩
    by_contra hstrict
    rw [step_of_unmatched s _ e hh hf hd,
      State.runUnmatched_of_lenient (by simpa using hstrict)] at h
    cases h
    simp [State.finishStep_halted, hh] at ht
  | ok i =>
    obtain ⟨u, hu⟩ := exec_answers_next i s.advancePc
    cases (step_of_decoded s u _ i hh hf hd hu).symm.trans h
    obtain ⟨hframe, -, -⟩ | ⟨c, a, hdue, -⟩ := exec_cases hu
    · simp [State.finishStep_halted, hframe.halted (fault_notMem_writableParts i), hh] at ht
    · exact ⟨c, _, a, (faultDue_iff_of_decoded hpc hd).2 ⟨rfl, execFaultDue_advancePc.1 hdue⟩⟩

end FaultDue

/-! ## Transactions, FAULT and the invariant (R202, R215) -/

theorem State.hostTick_of_free {s : State} (h : s.params.timerMode = .free) :
    s.hostTick = .next s.tick := by
  simp only [State.hostTick, h]

/-- The one way the transaction TICK answers a next state. -/
theorem State.hostTick_next {s t : State} (h : s.hostTick = .next t) : t = s.tick := by
  unfold State.hostTick at h
  split at h
  · cases h; rfl
  · cases h

/-- RESET ends a halt, with or without an image (R203, R240). -/
theorem State.halted_of_resetWith {s t : State} {image : Option (List Byte)}
    (h : s.resetWith image = .next t) : t.halted = false := by
  obtain ⟨-, ⟨-, rfl⟩ | ⟨P, -, hload⟩⟩ := s.resetWith_next h
  · exact s.resetEngine_halted
  · obtain ⟨-, -, -, rfl⟩ := s.resetEngine.load_next hload
    rw [State.writeBytes_halted, State.resetEngine_halted]

section Inv
variable {s t : State}

/-- RESET keeps the invariant: PRESCALE = 0 is below TIMER_N, and no fault is left (R240). -/
theorem Inv.resetEngine (h : Inv s) : Inv s.resetEngine where
  params := h.params
  mem := Memory.wf_reloadFont _ _ h.mem
  sp := Nat.zero_le _
  prescale := Nat.zero_lt_of_lt h.prescale
  fault := rfl
  faultPc hr := by simp at hr

/-- LOAD keeps the invariant: an image it takes fits in MEM (R242). -/
theorem Inv.of_load {image : List Byte} (h : Inv s) (hload : s.load image = .next t) : Inv t := by
  obtain ⟨-, -, hfits, rfl⟩ := s.load_next hload
  obtain ⟨-, hmem, hsp⟩ := Effect.writeBytes (regs := []) (parts := [.mem]) (by simp)
    (firstOutOfRange_of_fits hfits)
  exact ⟨by simpa using h.params, hmem h.mem, hsp h.sp, by simpa using h.prescale,
    by simpa using h.fault, by simpa using h.faultPc⟩

theorem Inv.of_resetWith {image : Option (List Byte)} (h : Inv s)
    (hreset : s.resetWith image = .next t) : Inv t := by
  obtain ⟨-, ⟨-, rfl⟩ | ⟨P, -, hload⟩⟩ := s.resetWith_next hreset
  · exact h.resetEngine
  · exact h.resetEngine.of_load hload

/-- The invariant speaks of no timer. -/
theorem Inv.tick (h : Inv s) : Inv s.tick :=
  ⟨h.params, h.mem, h.sp, h.prescale, h.fault, h.faultPc⟩

/-- The invariant does not speak of KEYS. -/
theorem Inv.press (h : Inv s) (k : Key) : Inv (s.press k) :=
  ⟨h.params, h.mem, h.sp, h.prescale, h.fault, h.faultPc⟩

theorem Inv.release (h : Inv s) (k : Key) : Inv (s.release k) :=
  ⟨h.params, h.mem, h.sp, h.prescale, h.fault, h.faultPc⟩

end Inv

end Sys2Proof.Machine
end

section
/-! The obligations of spec/60_exceptions.md. -/

namespace Sys2Proof.Proofs

open Sys2Proof.Machine

/-- Settles O19, by the transaction: STEP is O18, and the others keep the invariant by their own
lemmas. -/
theorem transactionsKeepTheInvariant : Obligations.TransactionsKeepTheInvariant := by
  intro a s t hi h
  cases a with
  | step => exact stepKeepsTheInvariant s t hi h
  | tick => exact State.hostTick_next h ▸ hi.tick
  | reset image => exact hi.of_resetWith h
  | load image => exact hi.of_load h
  | press k => cases h; exact hi.press k
  | release k => cases h; exact hi.release k

/-- Settles O9: only RESET writes FAULT of a halted engine, and it clears it. -/
theorem haltedEngineWaitsForReset : Obligations.HaltedEngineWaitsForReset := by
  intro s hh
  have hstep : transact .step s = .next s := step_of_halted s hh
  refine ⟨hstep, State.hostTick_of_free, fun _ => rfl, fun _ => rfl,
    fun _ _ => State.halted_of_resetWith, fun a t h hfault => ?_⟩
  cases a with
  | reset image => exact ⟨image, rfl⟩
  | step => cases hstep.symm.trans h; exact absurd rfl hfault
  | tick => cases State.hostTick_next h; exact absurd s.tick_fault hfault
  | load image =>
    obtain ⟨-, -, -, rfl⟩ := s.load_next h
    exact absurd (s.writeBytes_fault _ _) hfault
  | press | release => cases h; exact absurd rfl hfault

/-- Settles O11: `step_of_faultDue`, and a STEP always answers, so without an owed fault it leaves a
running engine. -/
theorem stepFaultsExactlyWhenDue : Obligations.StepFaultsExactlyWhenDue := by
  refine fun s hh => ⟨fun _ _ _ => step_of_faultDue hh, fun hnone => ?_⟩
  obtain ⟨t, ht⟩ := step_answers_next s
  refine ⟨t, ht, Bool.eq_false_iff.2 fun hhalt => ?_⟩
  exact hnone (exists_faultDue_of_step_halts hh ht hhalt)

/-- Settles O12: the STEP ends with `finishStep`, and the instruction left PRESCALE and the
parameters as they were. -/
theorem executedStepsAdvancePrescale : Obligations.ExecutedStepsAdvancePrescale := by
  intro s t i hh hpc hd he
  have hstep : step s = .next t.finishStep :=
    step_of_decoded s t _ i hh (State.fetch_eq_opcodeAtPc hpc) hd he
  have hpre : t.prescale = s.prescale := prescale_of_exec (s := s.advancePc) he
  have hpar : t.params = s.params := params_of_exec (s := s.advancePc) he
  rw [hstep, ← hpre, ← hpar]
  refine ⟨fun ht => ⟨by rw [State.finishStep_of_halted ht], rfl⟩, fun ht hm => ?_,
    fun ht hm hn => ?_, fun ht hm hn => ?_⟩
  · rw [State.finishStep_of_running ht, State.advancePrescale_of_free hm]
  · rw [State.finishStep_of_running ht, State.advancePrescale_of_before hm hn]
  · rw [State.finishStep_of_running ht, State.advancePrescale_of_last hm hn, State.tick,
      countDown_eq_of_pos, countDown_eq_of_pos]

/-- Settles O13: each timer by `countDown_toNat`, the rest of the state by the frame of TICK. -/
theorem tickCountsBothTimersDown : Obligations.TickCountsBothTimersDown := fun s =>
  ⟨countDown_toNat s.dt, countDown_toNat s.st, s.tick.sound_eq, rfl, rfl, s.tick_frame,
    State.hostTick_of_free⟩

end Sys2Proof.Proofs
end

section
/-! SUPPORT. No transaction changes the parameters; LOAD and boot by cases; what the bytes below ENTRY
and the first fetch are after a LOAD. -/

namespace Sys2Proof

/-- The ranges of R7. -/
theorem Params.valid_iff (p : Params) :
    p.valid = true ↔ 0x200 ≤ p.entry.toNat ∧ p.entry.toNat ≤ 0xFFE ∧ 0 < p.timerN := by
  simp [Params.valid, and_assoc]

end Sys2Proof

namespace Sys2Proof.Machine

/-! ## The parameters (R7) -/

@[simp] theorem State.finishStep_params (s : State) : s.finishStep.params = s.params := by
  obtain h | ⟨-, -, -, h⟩ | ⟨-, -, -, h⟩ := s.finishStep_cases <;> rw [h]

@[simp] theorem State.runUnmatched_params (s : State) (op : Word) :
    (s.runUnmatched op).params = s.params := by
  unfold State.runUnmatched
  split
  · exact s.raise_params _ _ _
  · rfl

section Params
variable {s t : State}

theorem params_of_step (h : step s = .next t) : t.params = s.params := by
  obtain ⟨-, rfl⟩ | ⟨-, a, -, rfl⟩ | ⟨-, op, -, -, -, rfl⟩ | ⟨-, -, i, u, -, -, he, rfl⟩ :=
    step_cases h
  · rfl
  · exact s.raiseFetch_params a
  · rw [State.finishStep_params, State.runUnmatched_params, State.advancePc_params]
  · rw [State.finishStep_params, params_of_exec he, State.advancePc_params]

theorem State.params_of_load {image : List Byte} (h : s.load image = .next t) :
    t.params = s.params := by
  obtain ⟨-, -, -, rfl⟩ := s.load_next h
  exact s.writeBytes_params _ _

theorem State.params_of_resetWith {image : Option (List Byte)} (h : s.resetWith image = .next t) :
    t.params = s.params := by
  obtain ⟨-, ⟨-, rfl⟩ | ⟨P, -, hload⟩⟩ := s.resetWith_next h
  · exact s.resetEngine_params
  · exact (State.params_of_load hload).trans s.resetEngine_params

/-- No transaction changes the parameters (R7). -/
theorem params_of_transact {a : Transaction} (h : transact a s = .next t) : t.params = s.params := by
  cases a with
  | step => exact params_of_step h
  | tick => cases State.hostTick_next h; exact s.tick_params
  | reset image => exact State.params_of_resetWith h
  | load image => exact State.params_of_load h
  | press k => cases h; rfl
  | release k => cases h; rfl

end Params

/-! ## LOAD (R242) -/

section Load
variable {s : State} (hv : s.params.valid = true)
include hv

theorem State.load_nil : s.load [] = .refused .loadEmpty := by
  rw [State.load, if_neg (by simp [hv]), if_pos rfl]

/-- An image that exceeds MEM is not empty, because ENTRY is at most 0xFFE (R7). -/
theorem State.load_of_exceeds {image : List Byte}
    (h : 0x1000 < s.params.entry.toNat + image.length) :
    s.load image = .refused .loadTooLarge := by
  obtain ⟨-, hentry, -⟩ := s.params.valid_iff.1 hv
  have hne : image ≠ [] := by
    rintro rfl
    simp only [List.length_nil] at h
    omega
  rw [State.load, if_neg (by simp [hv]), if_neg hne, if_pos h]

end Load

theorem fontAddress_toNat (a : Fin 80) : (BitVec.ofNat 16 a.val).toNat = a.val := by
  rw [BitVec.toNat_ofNat]
  omega

/-- A multi-byte write that does not wrap leaves the bytes below its base. -/
theorem State.readByte_writeBytes_below (s : State) {base a : Word} {bs : List Byte}
    (hfits : base.toNat + bs.length ≤ 0x10000) (ha : a.toNat < base.toNat) :
    (s.writeBytes base bs).readByte a = s.readByte a := by
  refine s.readByte_writeBytes_other base a bs fun k hk e => ?_
  have hnat := congrArg BitVec.toNat e
  rw [BitVec.toNat_add, BitVec.toNat_ofNat] at hnat
  omega

/-- Two bytes written at PC, inside MEM, are the opcode the next STEP fetches (R57, R70). -/
theorem State.fetch_writeBytes_pc (s : State) (hi lo : Byte) (rest : List Byte)
    (hfits : s.pc.toNat + (rest.length + 2) ≤ 0x1000) :
    (s.writeBytes s.pc (hi :: lo :: rest)).fetch = .ok (opcodeOfBytes hi lo) := by
  have hlen : (hi :: lo :: rest).length ≤ 65536 := by simp only [List.length_cons]; omega
  have h0 := s.readByte_writeBytes s.pc _ hlen 0 (by simp)
  have h1 := s.readByte_writeBytes s.pc _ hlen 1 (by simp)
  rw [State.fetch_of_inRange _ (by rw [State.writeBytes_pc]; omega), State.writeBytes_pc]
  simpa using congrArg₂ opcodeOfBytes h0 h1

/-! ## Boot (R241, R243) -/

/-- The machine that powers on already holds what RESET leaves, so its boot is the LOAD. -/
theorem boot_eq_load {p : Params} (hp : p.valid = true) (image : List Byte) :
    boot p image = (State.powerOn p).load image :=
  State.resetWith_some (State.powerOn p) image hp

theorem params_of_boot {p : Params} {image : List Byte} {s : State} (h : boot p image = .next s) :
    s.params = p :=
  State.params_of_resetWith h

/-- A machine with a run has valid parameters, and its booted state meets the invariant. -/
theorem Inv.of_boot {p : Params} {image : List Byte} {s : State} (h : boot p image = .next s) :
    Inv s :=
  (Inv.powerOn (State.resetWith_next h).1).of_resetWith h

end Sys2Proof.Machine
end

section
/-! The obligations of spec/70_reset_and_hazards.md. -/

namespace Sys2Proof.Proofs

open Sys2Proof.Machine

/-- Settles O20, by induction on the run: the boot establishes both parts, and every transaction keeps
them (O19 and `params_of_transact`). -/
theorem reachableStatesMeetTheInvariant : Obligations.ReachableStatesMeetTheInvariant := by
  intro p s hs
  induction hs with
  | boot image s h => exact ⟨.of_boot h, params_of_boot h⟩
  | transact a s t _ h ih =>
    obtain ⟨hinv, hparams⟩ := ih
    exact ⟨transactionsKeepTheInvariant a s t hinv h, (params_of_transact h).trans hparams⟩

/-- Settles O50: a LOAD that is taken is one `writeBytes` at ENTRY, and each refusal has its lemma. -/
theorem loadCopiesTheImageOrIsRefused : Obligations.LoadCopiesTheImageOrIsRefused := by
  intro image s hv
  refine ⟨fun hne hfits => ⟨_, s.load_of_fits image hv hne hfits, fun j => ?_, fun a ha => ?_, ?_⟩,
    ?_, State.load_of_exceeds hv⟩
  · exact s.readByte_writeBytes _ image (by omega) j.val j.isLt
  · exact s.readByte_writeBytes_other _ a image ha
  · exact s.writeBytes_frame _ image
  · rintro rfl
    exact State.load_nil hv

/-- Settles O51: the boot is a LOAD at ENTRY = PC, which is above the font. -/
theorem bootRunsTheImageFromEntry : Obligations.BootRunsTheImageFromEntry := by
  intro p hi lo rest hp hfits
  obtain ⟨hentry, -, -⟩ := p.valid_iff.1 hp
  refine ⟨_, (boot_eq_load hp _).trans (State.load_of_fits _ _ hp (by simp) hfits), ?_, ?_, ?_,
    fun a => ?_⟩
  · exact State.writeBytes_halted _ _ _
  · exact State.writeBytes_pc _ _ _
  · exact (State.powerOn p).fetch_writeBytes_pc hi lo rest hfits
  · rw [← readByte_powerOn]
    refine State.readByte_writeBytes_below _ (Nat.le_trans hfits (by decide)) ?_
    rw [fontAddress_toNat]
    exact Nat.lt_of_lt_of_le a.isLt (Nat.le_trans (by decide) hentry)

/-- Settles O49: the fields of `State.resetEngine`, its bytes by `State.readByte_resetEngine`, and a
RESET with an image is the LOAD that follows one without. -/
theorem resetRestoresTheEngine : Obligations.ResetRestoresTheEngine := by
  intro s hv
  refine ⟨s.resetEngine, s.resetWith_none hv, s.resetEngine_reg, rfl, rfl, rfl, fun j => ?_, rfl, rfl,
    fun X Y => ?_, rfl, rfl, fun a => ?_, fun a ha => ?_, rfl, rfl, fun image hne hfits => ?_⟩
  · simp
  · exact congrArg Bool.toNat (pixel_clearFb X Y)
  · simp only [State.readByte_resetEngine, fontAddress_toNat, a.isLt, ↓reduceDIte, Fin.getElem_fin]
  · rw [State.readByte_resetEngine, dif_neg (by omega)]
  · have hload := s.resetEngine.load_of_fits image hv hne hfits
    exact ⟨_, (s.resetWith_some image hv).trans hload, hload⟩

end Sys2Proof.Proofs
end
